-- ==== Sys2Proof/Word.lean ====
section
/-! DEFINITION. The word types of the machine (spec/00_scope.md R6, R7): every quantity is unsigned.
A bit vector stands for what the spec treats as bits (registers, addresses in registers, instruction fields);
a memory cell's key is a plain natural number. -/

namespace Sys2Proof

/-- An 8-bit quantity: a `V` register, a timer, the key latch, a byte of `ram` (R10, R16, R17, R18, R20). -/
abbrev Byte := BitVec 8

/-- A 16-bit quantity: `I`, `PC`, a stack entry, an instruction word (R12, R13, R15, R45). -/
abbrev Word := BitVec 16

/-- A 12-bit address field `nnn` (R46). -/
abbrev Addr12 := BitVec 12

/-- A 4-bit field (R46). -/
abbrev Nibble := BitVec 4

/-- The index of a general register, 0..15 (R10, R46). -/
abbrev Reg := Fin 16

/-- `VF`, the register that five arithmetic instructions and the draw also use as a flag (R11). -/
abbrev regF : Reg := 15

end Sys2Proof
end

