-- ==== Sys2Proof/Syntax.lean ====
section
/-! DEFINITION. The abstract syntax: one constructor for each of the 34 rows of the opcode map
(spec/30_encoding.md R50), its operands being exactly the fields the row's pattern leaves free (R46, R47). -/

namespace Sys2Proof

/-- The 34 instructions, in the order of R50. Register operands are indices, immediates keep the width R46 gives
their field, so a value outside its field cannot be written down. -/
inductive Instr
  /-- `00E0` CLS (R98). -/
  | cls
  /-- `00EE` RET (R70). -/
  | ret
  /-- `1nnn` JP nnn (R71). -/
  | jp (nnn : Addr12)
  /-- `2nnn` CALL nnn (R72). -/
  | call (nnn : Addr12)
  /-- `3xnn` SE Vx, nn (R74). -/
  | seImm (x : Reg) (nn : Byte)
  /-- `4xnn` SNE Vx, nn (R75). -/
  | sneImm (x : Reg) (nn : Byte)
  /-- `5xy0` SE Vx, Vy (R76). -/
  | seReg (x y : Reg)
  /-- `6xnn` LD Vx, nn (R78). -/
  | ldImm (x : Reg) (nn : Byte)
  /-- `7xnn` ADD Vx, nn (R79). -/
  | addImm (x : Reg) (nn : Byte)
  /-- `8xy0` LD Vx, Vy (R81). -/
  | ldReg (x y : Reg)
  /-- `8xy1` OR Vx, Vy (R82). -/
  | orReg (x y : Reg)
  /-- `8xy2` AND Vx, Vy (R83). -/
  | andReg (x y : Reg)
  /-- `8xy3` XOR Vx, Vy (R84). -/
  | xorReg (x y : Reg)
  /-- `8xy4` ADD Vx, Vy (R85). -/
  | addReg (x y : Reg)
  /-- `8xy5` SUB Vx, Vy (R86). -/
  | subReg (x y : Reg)
  /-- `8xy6` SHR Vx (R87); `y` is a free field of the word that the instruction ignores. -/
  | shr (x y : Reg)
  /-- `8xy7` SUBN Vx, Vy (R88). -/
  | subnReg (x y : Reg)
  /-- `8xyE` SHL Vx (R89); `y` is a free field of the word that the instruction ignores. -/
  | shl (x y : Reg)
  /-- `9xy0` SNE Vx, Vy (R77). -/
  | sneReg (x y : Reg)
  /-- `Annn` LD I, nnn (R92). -/
  | ldI (nnn : Addr12)
  /-- `Bnnn` JP V0, nnn (R73). -/
  | jpV0 (nnn : Addr12)
  /-- `Cxnn` RND Vx, nn (R91). -/
  | rnd (x : Reg) (nn : Byte)
  /-- `Dxyn` DRW Vx, Vy, n (R101). -/
  | drw (x y : Reg) (n : Nibble)
  /-- `Ex9E` SKP Vx (R102). -/
  | skp (x : Reg)
  /-- `ExA1` SKNP Vx (R103). -/
  | sknp (x : Reg)
  /-- `Fx07` LD Vx, DT (R105). -/
  | ldVxDT (x : Reg)
  /-- `Fx0A` LD Vx, K (R104). -/
  | ldVxK (x : Reg)
  /-- `Fx15` LD DT, Vx (R106). -/
  | ldDTVx (x : Reg)
  /-- `Fx18` LD ST, Vx (R107). -/
  | ldSTVx (x : Reg)
  /-- `Fx1E` ADD I, Vx (R93). -/
  | addI (x : Reg)
  /-- `Fx29` LD F, Vx (R94). -/
  | ldF (x : Reg)
  /-- `Fx33` LD B, Vx (R95). -/
  | ldB (x : Reg)
  /-- `Fx55` LD [I], Vx (R96). -/
  | storeRegs (x : Reg)
  /-- `Fx65` LD Vx, [I] (R97). -/
  | loadRegs (x : Reg)
  deriving DecidableEq, Repr

/-- What decoding a word answers; `illegalOpcode` names the one way a word is rejected (R55). -/
inductive Decoded
  | instr (i : Instr)
  | illegalOpcode (op : Word)
  deriving DecidableEq, Repr

/-- What decoding a list of bytes answers: the instruction and the bytes after it, the rejected word, or that fewer
than the two bytes of a word are there (R45). -/
inductive DecodedBytes
  | instr (i : Instr) (rest : List Byte)
  | illegalOpcode (op : Word)
  | truncated
  deriving DecidableEq, Repr

/-- The six fields decode extracts from every word (R46). -/
structure Fields where
  cls : Nibble
  x : Reg
  y : Reg
  n : Nibble
  nn : Byte
  nnn : Addr12
  deriving DecidableEq, Repr

/-- One row of the opcode map (R50): a word `op` selects the row when `op &&& mask = pattern`. -/
structure OpcodeRow where
  pattern : Word
  mask : Word
  deriving DecidableEq, Repr

end Sys2Proof
end

