-- ==== Sys2Proof/Decode.lean ====
section
/-! DEFINITION. Decoding a word or a list of bytes, the encoder, and the opcode map as data
(spec/30_encoding.md R45 to R55). -/

namespace Sys2Proof

/-- A register index from its 4-bit field, directly (R48). -/
def regOfBits (b : Nibble) : Reg := ⟨b.toNat, b.isLt⟩

/-- The 4-bit field of a register index. -/
def bitsOfReg (r : Reg) : Nibble := BitVec.ofNat 4 r.val

/-- The six fields, as slices of the word; total (R46). -/
def fieldsOf (op : Word) : Fields where
  cls := op.extractLsb' 12 4
  x := regOfBits (op.extractLsb' 8 4)
  y := regOfBits (op.extractLsb' 4 4)
  n := op.extractLsb' 0 4
  nn := op.extractLsb' 0 8
  nnn := op.extractLsb' 0 12

/-- Class `0`: the whole word is matched, so `x` must be 0 (R49, R52). -/
def decode0 (op : Word) : Decoded :=
  if op = 0x00E0#16 then .instr .cls
  else if op = 0x00EE#16 then .instr .ret
  else .illegalOpcode op

/-- Class `8`, by `n` (R53). -/
def decode8 (op : Word) (f : Fields) : Decoded :=
  match f.n with
  | 0x0#4 => .instr (.ldReg f.x f.y)
  | 0x1#4 => .instr (.orReg f.x f.y)
  | 0x2#4 => .instr (.andReg f.x f.y)
  | 0x3#4 => .instr (.xorReg f.x f.y)
  | 0x4#4 => .instr (.addReg f.x f.y)
  | 0x5#4 => .instr (.subReg f.x f.y)
  | 0x6#4 => .instr (.shr f.x f.y)
  | 0x7#4 => .instr (.subnReg f.x f.y)
  | 0xE#4 => .instr (.shl f.x f.y)
  | _ => .illegalOpcode op

/-- Class `E`, by `nn` (R54). -/
def decodeE (op : Word) (f : Fields) : Decoded :=
  match f.nn with
  | 0x9E#8 => .instr (.skp f.x)
  | 0xA1#8 => .instr (.sknp f.x)
  | _ => .illegalOpcode op

/-- Class `F`, by `nn` (R54). -/
def decodeF (op : Word) (f : Fields) : Decoded :=
  match f.nn with
  | 0x07#8 => .instr (.ldVxDT f.x)
  | 0x0A#8 => .instr (.ldVxK f.x)
  | 0x15#8 => .instr (.ldDTVx f.x)
  | 0x18#8 => .instr (.ldSTVx f.x)
  | 0x1E#8 => .instr (.addI f.x)
  | 0x29#8 => .instr (.ldF f.x)
  | 0x33#8 => .instr (.ldB f.x)
  | 0x55#8 => .instr (.storeRegs f.x)
  | 0x65#8 => .instr (.loadRegs f.x)
  | _ => .illegalOpcode op

/-- Dispatch on the top nibble, then on the secondary field (R49, R51). Every word that selects no row of R50 is
rejected as `illegalOpcode` (R55). -/
def decode (op : Word) : Decoded :=
  let f := fieldsOf op
  match f.cls with
  | 0x0#4 => decode0 op
  | 0x1#4 => .instr (.jp f.nnn)
  | 0x2#4 => .instr (.call f.nnn)
  | 0x3#4 => .instr (.seImm f.x f.nn)
  | 0x4#4 => .instr (.sneImm f.x f.nn)
  | 0x5#4 => if f.n = 0x0#4 then .instr (.seReg f.x f.y) else .illegalOpcode op
  | 0x6#4 => .instr (.ldImm f.x f.nn)
  | 0x7#4 => .instr (.addImm f.x f.nn)
  | 0x8#4 => decode8 op f
  | 0x9#4 => if f.n = 0x0#4 then .instr (.sneReg f.x f.y) else .illegalOpcode op
  | 0xA#4 => .instr (.ldI f.nnn)
  | 0xB#4 => .instr (.jpV0 f.nnn)
  | 0xC#4 => .instr (.rnd f.x f.nn)
  | 0xD#4 => .instr (.drw f.x f.y f.n)
  | 0xE#4 => decodeE op f
  | 0xF#4 => decodeF op f
  | _ => .illegalOpcode op

/-- The word of two bytes, the byte at the lower address in bits 15:8 (spec/20_memory.md R32). -/
def wordOfBytes (hi lo : Byte) : Word := hi ++ lo

/-- The byte of a word at the lower address (R32). -/
def highByte (w : Word) : Byte := w.extractLsb' 8 8

/-- The byte of a word at the higher address (R32). -/
def lowByte (w : Word) : Byte := w.extractLsb' 0 8

/-- Decoding from a list of bytes: every instruction is two bytes (R45). -/
def decodeBytes : List Byte → DecodedBytes
  | hi :: lo :: rest =>
    match decode (wordOfBytes hi lo) with
    | .instr i => .instr i rest
    | .illegalOpcode op => .illegalOpcode op
  | _ => .truncated

/-! ### The encoder -/

/-- Format `XNN` (R47). -/
def encodeXNN (c : Nibble) (x : Reg) (nn : Byte) : Word := c ++ bitsOfReg x ++ nn

/-- Formats `XYS` and `XYN` (R47). -/
def encodeXYN (c : Nibble) (x y : Reg) (n : Nibble) : Word := c ++ bitsOfReg x ++ bitsOfReg y ++ n

/-- Format `NNN` (R47). -/
def encodeNNN (c : Nibble) (nnn : Addr12) : Word := c ++ nnn

/-- The word of an instruction, from the patterns of R50. -/
def encode : Instr → Word
  | .cls => 0x00E0#16
  | .ret => 0x00EE#16
  | .jp nnn => encodeNNN 0x1 nnn
  | .call nnn => encodeNNN 0x2 nnn
  | .seImm x nn => encodeXNN 0x3 x nn
  | .sneImm x nn => encodeXNN 0x4 x nn
  | .seReg x y => encodeXYN 0x5 x y 0x0
  | .ldImm x nn => encodeXNN 0x6 x nn
  | .addImm x nn => encodeXNN 0x7 x nn
  | .ldReg x y => encodeXYN 0x8 x y 0x0
  | .orReg x y => encodeXYN 0x8 x y 0x1
  | .andReg x y => encodeXYN 0x8 x y 0x2
  | .xorReg x y => encodeXYN 0x8 x y 0x3
  | .addReg x y => encodeXYN 0x8 x y 0x4
  | .subReg x y => encodeXYN 0x8 x y 0x5
  | .shr x y => encodeXYN 0x8 x y 0x6
  | .subnReg x y => encodeXYN 0x8 x y 0x7
  | .shl x y => encodeXYN 0x8 x y 0xE
  | .sneReg x y => encodeXYN 0x9 x y 0x0
  | .ldI nnn => encodeNNN 0xA nnn
  | .jpV0 nnn => encodeNNN 0xB nnn
  | .rnd x nn => encodeXNN 0xC x nn
  | .drw x y n => encodeXYN 0xD x y n
  | .skp x => encodeXNN 0xE x 0x9E
  | .sknp x => encodeXNN 0xE x 0xA1
  | .ldVxDT x => encodeXNN 0xF x 0x07
  | .ldVxK x => encodeXNN 0xF x 0x0A
  | .ldDTVx x => encodeXNN 0xF x 0x15
  | .ldSTVx x => encodeXNN 0xF x 0x18
  | .addI x => encodeXNN 0xF x 0x1E
  | .ldF x => encodeXNN 0xF x 0x29
  | .ldB x => encodeXNN 0xF x 0x33
  | .storeRegs x => encodeXNN 0xF x 0x55
  | .loadRegs x => encodeXNN 0xF x 0x65

/-- The bytes of an instruction in `ram`, lower address first (R32, R45). -/
def encodeBytes (i : Instr) : List Byte := [highByte (encode i), lowByte (encode i)]

/-! ### The opcode map as data -/

/-- The row of R50 an instruction belongs to. -/
def rowOf : Instr → OpcodeRow
  | .cls => ⟨0x00E0, 0xFFFF⟩
  | .ret => ⟨0x00EE, 0xFFFF⟩
  | .jp _ => ⟨0x1000, 0xF000⟩
  | .call _ => ⟨0x2000, 0xF000⟩
  | .seImm _ _ => ⟨0x3000, 0xF000⟩
  | .sneImm _ _ => ⟨0x4000, 0xF000⟩
  | .seReg _ _ => ⟨0x5000, 0xF00F⟩
  | .ldImm _ _ => ⟨0x6000, 0xF000⟩
  | .addImm _ _ => ⟨0x7000, 0xF000⟩
  | .ldReg _ _ => ⟨0x8000, 0xF00F⟩
  | .orReg _ _ => ⟨0x8001, 0xF00F⟩
  | .andReg _ _ => ⟨0x8002, 0xF00F⟩
  | .xorReg _ _ => ⟨0x8003, 0xF00F⟩
  | .addReg _ _ => ⟨0x8004, 0xF00F⟩
  | .subReg _ _ => ⟨0x8005, 0xF00F⟩
  | .shr _ _ => ⟨0x8006, 0xF00F⟩
  | .subnReg _ _ => ⟨0x8007, 0xF00F⟩
  | .shl _ _ => ⟨0x800E, 0xF00F⟩
  | .sneReg _ _ => ⟨0x9000, 0xF00F⟩
  | .ldI _ => ⟨0xA000, 0xF000⟩
  | .jpV0 _ => ⟨0xB000, 0xF000⟩
  | .rnd _ _ => ⟨0xC000, 0xF000⟩
  | .drw _ _ _ => ⟨0xD000, 0xF000⟩
  | .skp _ => ⟨0xE09E, 0xF0FF⟩
  | .sknp _ => ⟨0xE0A1, 0xF0FF⟩
  | .ldVxDT _ => ⟨0xF007, 0xF0FF⟩
  | .ldVxK _ => ⟨0xF00A, 0xF0FF⟩
  | .ldDTVx _ => ⟨0xF015, 0xF0FF⟩
  | .ldSTVx _ => ⟨0xF018, 0xF0FF⟩
  | .addI _ => ⟨0xF01E, 0xF0FF⟩
  | .ldF _ => ⟨0xF029, 0xF0FF⟩
  | .ldB _ => ⟨0xF033, 0xF0FF⟩
  | .storeRegs _ => ⟨0xF055, 0xF0FF⟩
  | .loadRegs _ => ⟨0xF065, 0xF0FF⟩

/-- The 34 rows of R50, in its order. -/
def opcodeTable : List OpcodeRow :=
  [⟨0x00E0, 0xFFFF⟩, ⟨0x00EE, 0xFFFF⟩, ⟨0x1000, 0xF000⟩, ⟨0x2000, 0xF000⟩, ⟨0x3000, 0xF000⟩, ⟨0x4000, 0xF000⟩,
   ⟨0x5000, 0xF00F⟩, ⟨0x6000, 0xF000⟩, ⟨0x7000, 0xF000⟩]
  ++ [⟨0x8000, 0xF00F⟩, ⟨0x8001, 0xF00F⟩, ⟨0x8002, 0xF00F⟩, ⟨0x8003, 0xF00F⟩, ⟨0x8004, 0xF00F⟩, ⟨0x8005, 0xF00F⟩,
   ⟨0x8006, 0xF00F⟩, ⟨0x8007, 0xF00F⟩, ⟨0x800E, 0xF00F⟩]
  ++ [⟨0x9000, 0xF00F⟩, ⟨0xA000, 0xF000⟩, ⟨0xB000, 0xF000⟩, ⟨0xC000, 0xF000⟩, ⟨0xD000, 0xF000⟩, ⟨0xE09E, 0xF0FF⟩,
   ⟨0xE0A1, 0xF0FF⟩]
  ++ [⟨0xF007, 0xF0FF⟩, ⟨0xF00A, 0xF0FF⟩, ⟨0xF015, 0xF0FF⟩, ⟨0xF018, 0xF0FF⟩, ⟨0xF01E, 0xF0FF⟩, ⟨0xF029, 0xF0FF⟩,
   ⟨0xF033, 0xF0FF⟩, ⟨0xF055, 0xF0FF⟩, ⟨0xF065, 0xF0FF⟩]

/-- A word selects a row (R50). -/
def OpcodeRow.selectedBy (r : OpcodeRow) (op : Word) : Bool := op &&& r.mask == r.pattern

/-! ### The word numbered as spec/opcode_table.json numbers it -/

/-- The bytes of a table word as the hardware stores them: one 16-bit word, big-endian (R32, R45). -/
def bytesOfTableWord (nbits w : Nat) : List Byte :=
  let op : Word := BitVec.ofNat 16 (w % 2 ^ nbits)
  [highByte op, lowByte op]

/-- The instruction the decoder reads from a table word, none where it rejects it. -/
def decodeTableWord (nbits w : Nat) : Option Instr :=
  match decodeBytes (bytesOfTableWord nbits w) with
  | .instr i _ => some i
  | .illegalOpcode _ => none
  | .truncated => none

end Sys2Proof
end

