-- ==== Sys2Proof/Config.lean ====
section
/-! DEFINITION. What is fixed for the machine (spec/00_scope.md R6): the sizes the source states, and the one free
value, the random source. The parameters that the spec itself only DECIDES (the font, the tick policy, the order of
the flag write) stand in Machine/Params.lean, where a repair may mend them. -/

namespace Sys2Proof.Config

/-- `RAM_SIZE`: the addresses `0x000`..`0xFFF` exist and no others (R6, R30). -/
abbrev ramSize : Nat := 4096

/-- `PROG_BASE`: where the ROM is loaded and where `PC` starts (R6, R31). -/
abbrev progBase : Nat := 0x200

/-- `ROM_MAX`: the longest ROM image that fits (R6, R115). -/
abbrev romMax : Nat := 3584

/-- `STACK_DEPTH` (R6, R15). -/
abbrev stackDepth : Nat := 16

/-- `FB_ROWS` (R6, R19). -/
abbrev fbRows : Nat := 32

/-- `FB_COLS` (R6, R19). -/
abbrev fbCols : Nat := 64

/-- `FONT_LEN`: 16 glyphs of 5 bytes (R6, R133). -/
abbrev fontLen : Nat := 80

/-- The random source (R25, R91): the byte a `Cxnn` consumes as the `k`-th draw of a run when the host has injected
no byte of its own. It has NO BODY: no proof can learn a value of it or a law between two draws, so a claim that
holds of the model holds for every byte (log entry 3). -/
opaque rnd : Nat → Byte

end Sys2Proof.Config
end

