-- ==== Sys2Proof/Machine/Params.lean ====
section
/-! DEFINITION. The parameters of spec/00_scope.md R6 that the source leaves open and the spec decides
(spec/92_eei_decisions.md). They are configuration; they stand under Machine/ so that a repair may mend a value. -/

namespace Sys2Proof.Config

/-- `FONT_BASE` (R6, decision D5; log entry 7). PRESUMED: the source gives no number. -/
def fontBase : Nat := 0x050

/-- `FONT_TABLE`: the customary 16 glyphs of 5 bytes, digit `d` at offset `5*d` (R133, decision D6; log entry 7).
PRESUMED: the source gives no byte of it. -/
def fontTable : List Byte :=
  [0xF0, 0x90, 0x90, 0x90, 0xF0, 0x20, 0x60, 0x20, 0x20, 0x70, 0xF0, 0x10, 0xF0, 0x80, 0xF0, 0xF0, 0x10, 0xF0, 0x10, 0xF0]
  ++ [0x90, 0x90, 0xF0, 0x10, 0x10, 0xF0, 0x80, 0xF0, 0x10, 0xF0, 0xF0, 0x80, 0xF0, 0x90, 0xF0, 0xF0, 0x10, 0x20, 0x40, 0x40]
  ++ [0xF0, 0x90, 0xF0, 0x90, 0xF0, 0xF0, 0x90, 0xF0, 0x10, 0xF0, 0xF0, 0x90, 0xF0, 0x90, 0x90, 0xE0, 0x90, 0xE0, 0x90, 0xE0]
  ++ [0xF0, 0x80, 0x80, 0x80, 0xF0, 0xE0, 0x90, 0x90, 0x90, 0xE0, 0xF0, 0x80, 0xF0, 0x80, 0xF0, 0xF0, 0x80, 0xF0, 0x80, 0x80]

/-- The `TICK` policy: the level of the `tick` input on a step for which the host has scheduled none
(R6, R24, decision D11; log entry 2). -/
def tickDefault : Bool := true

/-- `FLAG_WRITE_LAST` (R6, R80, decision D12; log entry 9): the flag survives when `x = 0xF`. -/
def flagWriteLast : Bool := true

/-- What `ram[a]` holds after reset with `FONT_TABLE` as the font, when no ROM byte lies there: the font at `FONT_BASE`,
zero elsewhere (R131, R132 steps 2 and 3). It is also what an address that the memory list does not list reads as. -/
def resetByte (a : Nat) : Byte :=
  if fontBase ≤ a ∧ a < fontBase + fontLen then fontTable.getD (a - fontBase) 0 else 0

end Sys2Proof.Config
end

