-- ==== Sys2Proof/Machine/State.lean ====
section
/-! DEFINITION. The state of the machine as plain data (spec/10_state.md R10 to R29), why a step can stop, and the
state after reset (R27, R131). -/

namespace Sys2Proof.Machine

/-- `ram` (R18) as the cells that differ from the reset contents (`Config.resetByte`), addresses strictly rising. -/
abbrev Memory := List Host.Cell

/-- `fb[row][col]`, 32 rows of 64 one-bit cells (R19). -/
abbrev Framebuffer := Vector (Vector Bool 64) 32

/-- What the host does about one step (R5): in the gap before it, it may write the key latch with a 4-bit code
(R20, 0 being key-up), and during it, it holds the `tick` input at a level (R24). -/
structure HostTurn where
  key : Option (BitVec 4)
  tick : Bool
  deriving DecidableEq, Repr

/-- The 80 bytes of a font: 16 glyphs of 5 bytes (R132, R133). Another length is outside the spec (decision D27), so it
is no value of this type. -/
abbrev Font := Vector Byte 80

/-- What the host's loader presents at reset for the font (R5, R110, R132): its bytes, or a source it could not read. -/
inductive FontSource
  | bytes (font : Font)
  | unreadable
  deriving DecidableEq, Repr

/-- What the host's loader presents at reset for the ROM (R115, R132): its bytes, or a source it could not read. -/
inductive RomSource
  | bytes (rom : List Byte)
  | unreadable
  deriving DecidableEq, Repr

/-- The machine's own faults (R110, R111), each with the `info` R111 gives it. Taking one is a NEXT state with the
`FAULT` latch written (`raise`), not a stop of the model. -/
inductive FaultCause
  /-- Dispatch: the word matches no row of the opcode map. -/
  | illegalOpcode (op : Word)
  /-- A fetch, `Dxyn`, `Fx33`, `Fx55` or `Fx65` would touch `addr >= 4096`, the lowest such address. -/
  | outOfBounds (addr : Nat)
  /-- `2nnn` with `SP = 16`. -/
  | stackOverflow
  /-- `00EE` with `SP = 0`. -/
  | stackUnderflow
  /-- Reset with more than 3584 ROM bytes. -/
  | romTooLarge (len : Nat)
  /-- The host's loader could not read the ROM or the font. -/
  | ioError
  deriving DecidableEq, Repr

/-- Everything the spec gives the machine (R27), then the model's own fields for the host's inputs (R5, R24, R25). -/
structure State where
  /-- `V0`..`VF` (R10, R11). -/
  v : Vector Byte 16
  /-- `I` (R12). -/
  i : Word
  /-- `PC` (R13). -/
  pc : Word
  /-- `SP`, the number of return addresses held, 0..16 (R14). -/
  sp : Byte
  /-- The call stack, outside `ram` (R15). -/
  stack : Vector Word 16
  /-- `DT` (R16). -/
  dt : Byte
  /-- `ST` (R17). -/
  st : Byte
  /-- `ram` (R18). -/
  ram : Memory
  /-- The framebuffer (R19). -/
  fb : Framebuffer
  /-- `KEY`, the keypad latch, 0..15 (R20). -/
  key : Byte
  /-- `FAULT`, 0 meaning running (R21). -/
  fault : BitVec 3
  /-- The `info` of the fault taken, kept beside `FAULT` (R111). -/
  faultInfo : Option Nat
  /-- The MODEL's field: what the host will do about the coming steps, the next one first (log entry 2). -/
  turns : List HostTurn
  /-- The MODEL's field: the bytes the host has injected into the random source, the next one first (log entry 3). -/
  rndIn : List Byte
  /-- The MODEL's field: how many random bytes have been consumed (log entry 3). -/
  draws : Nat
  deriving DecidableEq, Repr

/-- Why the model stops without a next state. No machine fault is one of these: those are `FaultCause`. -/
inductive Fault
  /-- Raised by `2nnn` and `00EE` when `SP > 16`. R14 gives `SP` the range 0..16 and `SP <= 16` is kept by every step
  (R28), so no run reaches it and the spec gives no effect there. Safe: the model stops (log entry 6). -/
  | spOutOfRange
  deriving DecidableEq, Repr

/-- Why the model gives an instruction no meaning. -/
inductive Refusal
  /-- Raised by an arm of `exec` for an instruction that has no meaning yet; safe. No arm raises it now. -/
  | notModelled (mnemonic : String)
  deriving DecidableEq, Repr

/-- The outcome of a meaning and of a step. -/
abbrev Result := Host.Outcome State Fault Refusal

/-- The machine right after reset with the font `FONT_TABLE` and an empty ROM (R27, R131, R132; log entries 1 and 8): `PC = 0x200`, `SP = 0`,
`ram` the font over zeros (nothing listed), everything else zero, and no host action scheduled. -/
def State.reset : State where
  v := Vector.replicate 16 0
  i := 0x0000
  pc := 0x0200
  sp := 0
  stack := Vector.replicate 16 0
  dt := 0
  st := 0
  ram := []
  fb := Vector.replicate 32 (Vector.replicate 64 false)
  key := 0
  fault := 0
  faultInfo := none
  turns := []
  rndIn := []
  draws := 0

end Sys2Proof.Machine
end

