-- ==== Sys2Proof/Machine/Ops.lean ====
section
/-! DEFINITION. The named operations over registers, memory, stack and framebuffer, and taking a fault
(spec/10_state.md, spec/20_memory.md, spec/60_exceptions.md). -/

namespace Sys2Proof.Machine

/-! ### Registers -/

/-- `V[x]` (R10): no register is hard-wired. -/
def State.reg (s : State) (x : Reg) : Byte := s.v[x]

/-- `V[x] <- b` (R10). -/
def State.setReg (s : State) (x : Reg) (b : Byte) : State := { s with v := s.v.set x b }

/-- The whole register file replaced, for the range load (R97). -/
def State.setRegs (s : State) (v : Vector Byte 16) : State := { s with v := v }

/-- `I <- w` (R12). -/
def State.setI (s : State) (w : Word) : State := { s with i := w }

/-- `PC <- w` (R13). -/
def State.setPc (s : State) (w : Word) : State := { s with pc := w }

/-- `DT <- b` (R16). -/
def State.setDt (s : State) (b : Byte) : State := { s with dt := b }

/-- `ST <- b` (R17). -/
def State.setSt (s : State) (b : Byte) : State := { s with st := b }

/-- `ram` replaced (R18). -/
def State.setRam (s : State) (m : Memory) : State := { s with ram := m }

/-- The framebuffer replaced (R19). -/
def State.setFb (s : State) (fb : Framebuffer) : State := { s with fb := fb }

/-- The key latch written by the host's 4-bit port: bits 7:4 stay 0 (R20, decision D16). -/
def State.setKey (s : State) (code : BitVec 4) : State := { s with key := code.setWidth 8 }

/-! ### Advancing `PC` (R64) -/

/-- Normal advance: `PC <- pc0 + 2`. -/
def State.advance (s : State) : State := s.setPc (s.pc + 2)

/-- The conditional skip: `PC <- pc0 + 4` when the condition holds, else `pc0 + 2`. -/
def State.skipIf (s : State) (c : Bool) : State := s.setPc (if c then s.pc + 4 else s.pc + 2)

/-! ### Taking a fault (R111, R112), and the way out of it -/

/-- The code a fault writes into `FAULT` (R111). -/
def FaultCause.code : FaultCause → BitVec 3
  | .illegalOpcode _ => 1
  | .outOfBounds _ => 2
  | .stackOverflow => 3
  | .stackUnderflow => 4
  | .romTooLarge _ => 5
  | .ioError => 6

/-- The `info` recorded beside it (R111). -/
def FaultCause.info : FaultCause → Option Nat
  | .illegalOpcode op => some op.toNat
  | .outOfBounds addr => some addr
  | .stackOverflow => none
  | .stackUnderflow => none
  | .romTooLarge len => some len
  | .ioError => none

/-- Fault entry (R112): `FAULT` takes the code and nothing else changes; there is no handler, no saved `PC` but `PC`
itself, no mode. There is no return from it (R113, R117): only reset (`boot`) leaves the halted state. -/
def raise (c : FaultCause) (s : State) : State := { s with fault := c.code, faultInfo := c.info }

/-- The machine is halted (R26, R113). -/
def State.halted (s : State) : Bool := s.fault != 0

/-! ### Memory (R30 to R43) -/

/-- The byte at an address; an unlisted one reads as the reset contents (R40, R132). -/
def Memory.read : Memory → Nat → Byte
  | [], a => Config.resetByte a
  | (k, b) :: m, a => if k = a then b else Memory.read m a

/-- `ram[a] <- b`, keeping the canonical form: rising addresses, and no cell equal to the reset contents. -/
def Memory.write : Memory → Nat → Byte → Memory
  | [], a, b => if b = Config.resetByte a then [] else [(a, b)]
  | (k, c) :: m, a, b =>
    if a < k then (if b = Config.resetByte a then (k, c) :: m else (a, b) :: (k, c) :: m)
    else if a = k then (if b = Config.resetByte a then m else (a, b) :: m)
    else (k, c) :: Memory.write m a b

/-- Consecutive bytes, the first at `base` (R32, R36). -/
def Memory.writeAll : Memory → Nat → List Byte → Memory
  | m, _, [] => m
  | m, base, b :: bs => Memory.writeAll (Memory.write m base b) (base + 1) bs

/-- The `n` bytes from `base` upward (R36). -/
def Memory.readRange (m : Memory) (base n : Nat) : List Byte := (List.range n).map fun k => m.read (base + k)

/-- The canonical form from an address on: rising addresses inside `ram`, no cell equal to the reset contents. -/
def Memory.wfFrom (lo : Nat) : Memory → Bool
  | [] => true
  | (k, b) :: m => decide (lo ≤ k) && decide (k < Config.ramSize) && (b != Config.resetByte k) && Memory.wfFrom (k + 1) m

/-- The canonical form of memory. -/
def Memory.wf (m : Memory) : Bool := Memory.wfFrom 0 m

/-- `MemRead(addr, 1)`: `OutOfBounds(addr)` from address 4096 on, no wrap (R34). -/
def memRead (m : Memory) (a : Nat) : Except FaultCause Byte :=
  if a < Config.ramSize then .ok (m.read a) else .error (.outOfBounds a)

/-- Whether the `n` consecutive bytes from `base` all exist; no byte at all always does (R35, R36): addresses are
unbounded integers, so nothing wraps. -/
def inRange (base n : Nat) : Bool := decide (n = 0 ∨ base + n ≤ Config.ramSize)

/-- The fault of an access sequence that leaves `ram`: its lowest address `>= 4096` (R111). -/
def rangeFault (base : Nat) : FaultCause := .outOfBounds (max base Config.ramSize)

/-! ### The call stack (R14, R15) -/

/-- Push a return address; the caller has checked `SP < 16`. -/
def State.push (s : State) (w : Word) (h : s.sp.toNat < 16) : State :=
  { s with stack := s.stack.set s.sp.toNat w, sp := s.sp + 1 }

/-- The top of the stack, `stack[SP-1]`; the caller has checked that the entry exists. -/
def State.top (s : State) (h : s.sp.toNat - 1 < 16) : Word := s.stack[s.sp.toNat - 1]

/-- Pop: the entry keeps its old value (R15). -/
def State.drop (s : State) : State := { s with sp := s.sp - 1 }

/-! ### The framebuffer (R19, R98 to R101) -/

/-- Every cell 0 (R98). -/
def Framebuffer.blank : Framebuffer := Vector.replicate 32 (Vector.replicate 64 false)

/-- `fb[row][col]`. -/
def Framebuffer.pixel (fb : Framebuffer) (row : Fin 32) (col : Fin 64) : Bool := fb[row][col]

/-- XOR-plot one bit: a cell is never assigned directly (R19, R100). -/
def Framebuffer.xorPixel (fb : Framebuffer) (row : Fin 32) (col : Fin 64) (bit : Bool) : Framebuffer :=
  fb.set row (fb[row].set col (fb[row][col] ^^ bit))

/-- A drawing in progress: the framebuffer, and whether a sprite bit of 1 has met a lit cell (R101). -/
structure Canvas where
  fb : Framebuffer
  hit : Bool
  deriving DecidableEq, Repr

/-- Plot one bit at coordinates that wrap on their own (R100), noting a collision (R101). -/
def Canvas.plot (cv : Canvas) (y x : Nat) (bit : Bool) : Canvas where
  fb := cv.fb.xorPixel (Fin.ofNat 32 y) (Fin.ofNat 64 x) bit
  hit := cv.hit || (bit && cv.fb.pixel (Fin.ofNat 32 y) (Fin.ofNat 64 x))

/-- The bit of a sprite byte at column offset `c`, bit 7 leftmost (R99). -/
def spriteBit (b : Byte) (c : Nat) : Bool := b.getLsbD (7 - c)

/-- Columns `c`, `c+1`, .. of one sprite row, `k` of them (R101, the inner loop). -/
def drawCols (y x : Nat) (b : Byte) : Nat → Nat → Canvas → Canvas
  | _, 0, cv => cv
  | c, k + 1, cv => drawCols y x b (c + 1) k (cv.plot y (x + c) (spriteBit b c))

/-- The sprite's rows from row `r` on (R101, the outer loop). -/
def drawRows (py px : Nat) : Nat → List Byte → Canvas → Canvas
  | _, [], cv => cv
  | r, b :: bs, cv => drawRows py px (r + 1) bs (drawCols (py + r) px b 0 8 cv)

/-! ### The random source (R25, R91) -/

/-- The byte the next `Cxnn` consumes: the first one the host injected, else the free value of this draw. -/
def State.rndByte (s : State) : Byte :=
  match s.rndIn with
  | b :: _ => b
  | [] => Config.rnd s.draws

/-- One byte of the random source is consumed. -/
def State.consumeRnd (s : State) : State := { s with rndIn := s.rndIn.tail, draws := s.draws + 1 }

end Sys2Proof.Machine
end

