-- ==== Sys2Proof/Machine/Flags.lean ====
section
/-! DEFINITION. Every computation of `VF` as a flag (spec/10_state.md R11, spec/43_alu.md R80, R85 to R89), from the
operands before the operation, and the one place where a result and a flag are written. -/

namespace Sys2Proof.Machine

/-- A flag is written as the whole byte `0x00` or `0x01` (R11). -/
def flagByte (c : Bool) : Byte := if c then 1 else 0

/-- `8xy4`: the exact sum does not fit in 8 bits (R85). -/
def carryOut (a b : Byte) : Bool := decide (a.toNat + b.toNat > 255)

/-- `8xy5`: strictly greater, so equal operands give 0 (R86; conflict C10). -/
def isGreater (minuend subtrahend : Byte) : Bool := decide (minuend.toNat > subtrahend.toNat)

/-- `8xy7`: greater or equal, so equal operands give 1 (R88; conflict C10). -/
def isGreaterEq (minuend subtrahend : Byte) : Bool := decide (minuend.toNat ≥ subtrahend.toNat)

/-- `8xy6`: the bit shifted out on the right (R87). -/
def lowBit (a : Byte) : Bool := a.getLsbD 0

/-- `8xyE`: the bit shifted out on the left (R89). -/
def highBit (a : Byte) : Bool := a.getLsbD 7

/-- The result to `V[x]` and the flag to `VF`, the flag last, so that it survives when `x = 0xF`
(R80, decision D12; log entry 9). -/
def State.setResultFlag (s : State) (x : Reg) (result : Byte) (flag : Bool) : State :=
  if Config.flagWriteLast then (s.setReg x result).setReg regF (flagByte flag)
  else (s.setReg regF (flagByte flag)).setReg x result

end Sys2Proof.Machine
end

