-- ==== Sys2Proof/Machine/Operands.lean ====
section
/-! DEFINITION. The operand forms beyond a plain register or immediate (spec/30_encoding.md R48,
spec/44_index_memory.md): zero-extended addresses, the register range `V0..Vx`, the base `I`, the decimal digits of a
byte, the font glyph's address. Every immediate is unsigned and zero-extended. -/

namespace Sys2Proof.Machine

/-- `zext_16(nnn)` (R48). -/
def addrOf (nnn : Addr12) : Word := nnn.setWidth 16

/-- `zext_16(V[x])` (R48). -/
def wordOf (b : Byte) : Word := b.setWidth 16

/-- The base address `I` as an unbounded integer (R35): the only addressing mode is `I` plus a small offset (R48). -/
def State.base (s : State) : Nat := s.i.toNat

/-- How many registers the range `V0..Vx` holds, inclusive (R96, R97). -/
def rangeLen (x : Reg) : Nat := x.val + 1

/-- The bytes of `V0..Vx`, `V0` first (R96). -/
def State.regRange (s : State) (x : Reg) : List Byte := s.v.toList.take (rangeLen x)

/-- The register file with `V0..Vx` loaded from consecutive bytes and the registers above untouched (R97). -/
def State.loadedRange (s : State) (x : Reg) : Vector Byte 16 :=
  Vector.ofFn fun r : Reg => if r ≤ x then s.ram.read (s.base + r.val) else s.reg r

/-- Hundreds, tens and ones, each a binary value 0..9 in a byte of its own (R95). -/
def decimalDigits (b : Byte) : List Byte :=
  [BitVec.ofNat 8 (b.toNat / 100), BitVec.ofNat 8 (b.toNat / 10 % 10), BitVec.ofNat 8 (b.toNat % 10)]

/-- `FONT_BASE + 5 * V[x]`, the whole byte, not masked (R94, decision D17). -/
def glyphAddr (b : Byte) : Word := BitVec.ofNat 16 (Config.fontBase + 5 * b.toNat)

/-- The sprite's bytes, top row first (R99). -/
def State.sprite (s : State) (n : Nibble) : List Byte := s.ram.readRange s.base n.toNat

end Sys2Proof.Machine
end

