-- ==== Sys2Proof/Machine/Alu.lean ====
section
/-! DEFINITION. Load, arithmetic, logic, shift, random: `6xnn`, `7xnn`, `8xy0`..`8xy7`, `8xyE`, `Cxnn`
(spec/43_alu.md). Operands are read before anything is written (R80); 8-bit results wrap (R90). -/

namespace Sys2Proof.Machine

/-- The shape shared by the instructions that write one register and no flag. -/
def writeAdvance (x : Reg) (b : Byte) (s : State) : State := (s.setReg x b).advance

/-- The shape shared by the five instructions that write a result and a flag (R80). -/
def flagAdvance (x : Reg) (result : Byte) (flag : Bool) (s : State) : State := (s.setResultFlag x result flag).advance

/-- `6xnn` (R78). -/
def execLdImm (x : Reg) (nn : Byte) (s : State) : Result := .next (writeAdvance x nn s)

/-- `7xnn` (R79): wraps, no flag. -/
def execAddImm (x : Reg) (nn : Byte) (s : State) : Result := .next (writeAdvance x (s.reg x + nn) s)

/-- `8xy0` (R81). -/
def execLdReg (x y : Reg) (s : State) : Result := .next (writeAdvance x (s.reg y) s)

/-- `8xy1` (R82). -/
def execOrReg (x y : Reg) (s : State) : Result := .next (writeAdvance x (s.reg x ||| s.reg y) s)

/-- `8xy2` (R83). -/
def execAndReg (x y : Reg) (s : State) : Result := .next (writeAdvance x (s.reg x &&& s.reg y) s)

/-- `8xy3` (R84). -/
def execXorReg (x y : Reg) (s : State) : Result := .next (writeAdvance x (s.reg x ^^^ s.reg y) s)

/-- `8xy4` (R85). -/
def execAddReg (x y : Reg) (s : State) : Result :=
  .next (flagAdvance x (s.reg x + s.reg y) (carryOut (s.reg x) (s.reg y)) s)

/-- `8xy5` (R86). -/
def execSubReg (x y : Reg) (s : State) : Result :=
  .next (flagAdvance x (s.reg x - s.reg y) (isGreater (s.reg x) (s.reg y)) s)

/-- `8xy6` (R87): `V[x]` is shifted, `y` is ignored. -/
def execShr (x _y : Reg) (s : State) : Result :=
  .next (flagAdvance x (s.reg x >>> 1) (lowBit (s.reg x)) s)

/-- `8xy7` (R88). -/
def execSubnReg (x y : Reg) (s : State) : Result :=
  .next (flagAdvance x (s.reg y - s.reg x) (isGreaterEq (s.reg y) (s.reg x)) s)

/-- `8xyE` (R89): `V[x]` is shifted, `y` is ignored. -/
def execShl (x _y : Reg) (s : State) : Result :=
  .next (flagAdvance x (s.reg x <<< 1) (highBit (s.reg x)) s)

/-- `Cxnn` (R91): one byte of the random source, masked. -/
def execRnd (x : Reg) (nn : Byte) (s : State) : Result := .next (writeAdvance x (s.rndByte &&& nn) s.consumeRnd)

end Sys2Proof.Machine
end

