-- ==== Sys2Proof/Machine/Display.lean ====
section
/-! DEFINITION. The display instructions: `00E0`, `Dxyn` (spec/45_display.md). -/

namespace Sys2Proof.Machine

/-- `00E0` (R98): `VF` is not written. -/
def execCls (s : State) : Result := .next (s.setFb Framebuffer.blank).advance

/-- The canvas after the sprite is plotted at `(V[x], V[y])`, `V[x]` horizontal (R100, R101). -/
def State.drawn (s : State) (x y : Reg) (n : Nibble) : Canvas :=
  drawRows (s.reg y).toNat (s.reg x).toNat 0 (s.sprite n) ⟨s.fb, false⟩

/-- `Dxyn` (R101): faults with nothing drawn if a sprite byte does not exist (none is read when `n = 0`), else draws
and always writes `VF`. -/
def execDrw (x y : Reg) (n : Nibble) (s : State) : Result :=
  if inRange s.base n.toNat then
    .next ((s.setFb (s.drawn x y n).fb).setReg regF (flagByte (s.drawn x y n).hit)).advance
  else .next (raise (rangeFault s.base) s)

end Sys2Proof.Machine
end

