-- ==== Sys2Proof/Machine/Flow.lean ====
section
/-! DEFINITION. Control transfer: `00EE`, `1nnn`, `2nnn`, `Bnnn` (spec/41_flow.md). -/

namespace Sys2Proof.Machine

/-- `00EE` (R70): `StackUnderflow` when `SP = 0`, else `PC` is the popped entry, with no further advance. -/
def execRet (s : State) : Result :=
  if s.sp = 0 then .next (raise .stackUnderflow s)
  else if h : s.sp.toNat - 1 < 16 then .next (s.drop.setPc (s.top h))
  else .fault .spOutOfRange

/-- `1nnn` (R71): the target is taken verbatim. -/
def execJp (nnn : Addr12) (s : State) : Result := .next (s.setPc (addrOf nnn))

/-- `2nnn` (R72): `StackOverflow` when `SP = 16`, else the address after the `CALL` is pushed (decision D13). -/
def execCall (nnn : Addr12) (s : State) : Result :=
  if s.sp = 16 then .next (raise .stackOverflow s)
  else if h : s.sp.toNat < 16 then .next ((s.push (s.pc + 2) h).setPc (addrOf nnn))
  else .fault .spOutOfRange

/-- `Bnnn` (R73): always `V0`; the sum is not reduced. -/
def execJpV0 (nnn : Addr12) (s : State) : Result := .next (s.setPc (addrOf nnn + wordOf (s.reg 0)))

end Sys2Proof.Machine
end

