-- ==== Sys2Proof/Machine/Index.lean ====
section
/-! DEFINITION. The index register and the memory instructions: `Annn`, `Fx1E`, `Fx29`, `Fx33`, `Fx55`, `Fx65`
(spec/44_index_memory.md). Every address of an access sequence is checked before anything is written (R36). -/

namespace Sys2Proof.Machine

/-- `Annn` (R92). -/
def execLdI (nnn : Addr12) (s : State) : Result := .next (s.setI (addrOf nnn)).advance

/-- `Fx1E` (R93): wraps at 16 bits, no flag. -/
def execAddI (x : Reg) (s : State) : Result := .next (s.setI (s.i + wordOf (s.reg x))).advance

/-- `Fx29` (R94). -/
def execLdF (x : Reg) (s : State) : Result := .next (s.setI (glyphAddr (s.reg x))).advance

/-- Store consecutive bytes at `I`, or fault with nothing written; `I` stays (R95, R96). -/
def storeAtI (bytes : List Byte) (s : State) : Result :=
  if inRange s.base bytes.length then .next (s.setRam (s.ram.writeAll s.base bytes)).advance
  else .next (raise (rangeFault s.base) s)

/-- `Fx33` (R95). -/
def execLdB (x : Reg) (s : State) : Result := storeAtI (decimalDigits (s.reg x)) s

/-- `Fx55` (R96). -/
def execStoreRegs (x : Reg) (s : State) : Result := storeAtI (s.regRange x) s

/-- `Fx65` (R97). -/
def execLoadRegs (x : Reg) (s : State) : Result :=
  if inRange s.base (rangeLen x) then .next (s.setRegs (s.loadedRange x)).advance
  else .next (raise (rangeFault s.base) s)

end Sys2Proof.Machine
end

