-- ==== Sys2Proof/Machine/Keypad.lean ====
section
/-! DEFINITION. The keypad and timer instructions: `Ex9E`, `ExA1`, `Fx0A`, `Fx07`, `Fx15`, `Fx18`
(spec/46_keypad_timers.md). -/

namespace Sys2Proof.Machine

/-- `Ex9E` (R102): the whole 8-bit `V[x]` against the whole latch (decision D15). -/
def execSkp (x : Reg) (s : State) : Result := .next (s.skipIf (s.key == s.reg x))

/-- `ExA1` (R103). -/
def execSknp (x : Reg) (s : State) : Result := .next (s.skipIf (s.key != s.reg x))

/-- `Fx0A` (R104): with no key held `PC` stays and nothing is written, else the code is loaded. -/
def execLdVxK (x : Reg) (s : State) : Result :=
  if s.key = 0 then .next s else .next (s.setReg x s.key).advance

/-- `Fx07` (R105). -/
def execLdVxDT (x : Reg) (s : State) : Result := .next (s.setReg x s.dt).advance

/-- `Fx15` (R106). -/
def execLdDTVx (x : Reg) (s : State) : Result := .next (s.setDt (s.reg x)).advance

/-- `Fx18` (R107). -/
def execLdSTVx (x : Reg) (s : State) : Result := .next (s.setSt (s.reg x)).advance

end Sys2Proof.Machine
end

