-- ==== Sys2Proof/WellFormed.lean ====
section
/-! DEFINITION. The checks on what comes into the machine as raw data. An instruction needs none: its operand
types are the fields of spec/30_encoding.md R46, so an operand outside its field is not a term (the round trip in
Decode holds for every `Instr`). What the host supplies at reset is raw: the ROM, the font and the font's base. -/

namespace Sys2Proof.WellFormed

/-- A ROM image that fits above `PROG_BASE`; the empty image is accepted (spec/60_exceptions.md R115). -/
def rom (bytes : List Byte) : Bool :=
  decide (bytes.length ≤ Config.romMax)

/-- A font table of exactly 80 bytes (spec/70_reset_and_hazards.md R132, R133). -/
def font (bytes : List Byte) : Bool :=
  decide (bytes.length = Config.fontLen)

/-- A font base that keeps the whole font below `PROG_BASE` (spec/00_scope.md R6). -/
def fontBase (base : Nat) : Bool :=
  decide (base + Config.fontLen ≤ Config.progBase)

end Sys2Proof.WellFormed
end

