-- ==== Sys2Proof/Machine/HostPort.lean ====
section
/-! DEFINITION. What the host can do to the machine and see of it (spec/00_scope.md R5; spec/10_state.md R20, R22, R24,
R26; spec/70_reset_and_hazards.md R130 to R132): the key port, the framebuffer read port, the fault output, its turn
before each step, and reset with a font and a ROM. -/

namespace Sys2Proof.Machine

/-- Key-up: the latch is cleared (R20). -/
def State.keyUp (s : State) : State := s.setKey 0

/-- The framebuffer read port: 5-bit row, 6-bit column, no state changed (R22). -/
def State.fbRead (s : State) (row : BitVec 5) (col : BitVec 6) : Bool := s.fb.pixel row.toFin col.toFin

/-- What the host does about the next step: the scheduled turn, else no key write and the default tick level
(R5, R24; log entry 2). -/
def State.turn (s : State) : HostTurn :=
  match s.turns with
  | t :: _ => t
  | [] => ⟨none, Config.tickDefault⟩

/-- The host's turn taken: its key write lands in the gap BEFORE the step (R20, decision D28), halted or not (R113). -/
def State.afterTurn (s : State) : State :=
  let rest : State := { s with turns := s.turns.tail }
  match s.turn.key with
  | some code => rest.setKey code
  | none => rest

/-- A font the host offers as raw bytes: only one of exactly 80 is a value of the parameter (R132, U31, decision D27). -/
def FontSource.ofBytes (bytes : List Byte) : Option FontSource :=
  if h : WellFormed.font bytes = true then some (.bytes ⟨bytes.toArray, by simpa [WellFormed.font] using h⟩) else none

/-- The parameter `FONT_TABLE` as the host presents it (R133; log entry 7). -/
def FontSource.standard : FontSource := .bytes ⟨Config.fontTable.toArray, rfl⟩

/-- Step 2 of the boot sequence: `ram` zero at every address (R132). -/
def clearedRam : Memory := Memory.writeAll [] Config.fontBase (List.replicate Config.fontLen 0)

/-- Steps 1 to 3: everything at its reset value, `ram` cleared and the host's font copied to `FONT_BASE` (R132). -/
def loadFont (font : Font) : State := State.reset.setRam (clearedRam.writeAll Config.fontBase font.toList)

/-- Step 4: the ROM's bytes copied to `0x200`, or the fault of a load that fails (R115, R132). -/
def loadRom (src : RomSource) (s : State) : State :=
  match src with
  | .unreadable => raise .ioError s
  | .bytes rom =>
    if WellFormed.rom rom then s.setRam (s.ram.writeAll Config.progBase rom)
    else raise (.romTooLarge rom.length) s

/-- Reset (R130 to R132): the boot sequence on the host's font and ROM, the font first. A font that cannot be read ends it
with `IOError` before the ROM (R110, R115; log entry 19). It does not look at the state before it. -/
def boot : FontSource → RomSource → State
  | .unreadable, _ => raise .ioError (State.reset.setRam clearedRam)
  | .bytes font, src => loadRom src (loadFont font)

end Sys2Proof.Machine
end

