-- ==== Sys2Proof/Machine/Cycle.lean ====
section
/-! DEFINITION. The step of spec/40_step_cycle.md: fetch, decode, execute, timer tick (R60 to R68). -/

namespace Sys2Proof.Machine

/-- `Fetch(pc0)` (R62): two reads, the first byte in bits 15:8; the first address that does not exist faults. -/
def fetch (s : State) : Except FaultCause Word :=
  match memRead s.ram s.pc.toNat, memRead s.ram (s.pc.toNat + 1) with
  | .ok hi, .ok lo => .ok (wordOfBytes hi lo)
  | .error c, _ => .error c
  | .ok _, .error c => .error c

/-- One decrement that stays at 0 (R66). -/
def countDown (b : Byte) : Byte := if b = 0 then 0 else b - 1

/-- `Tick()` (R66). -/
def tick (s : State) : State := { s with dt := countDown s.dt, st := countDown s.st }

/-- The last stage of a step (R66, R68): the tick, unless its input is 0 or the instruction faulted. -/
def endStep (tickIn : Bool) (r : Result) : Result :=
  match r with
  | .next s => if tickIn && !s.halted then .next (tick s) else .next s
  | .fault c => .fault c
  | .refused c => .refused c

/-- `Step(state, tick, rnd)` (R60), the random byte being drawn from the state's random source. -/
def coreStep (tickIn : Bool) (s : State) : Result :=
  if s.halted then .next s
  else
    match fetch s with
    | .error c => .next (raise c s)
    | .ok op =>
      match decode op with
      | .instr i => endStep tickIn (exec i s)
      | .illegalOpcode w => .next (raise (.illegalOpcode w) s)

/-- The host's turn, then the step the host strobes (R5, R23). -/
def hostStep (s : State) : Result := coreStep s.turn.tick s.afterTurn

/-- The bytes of a table word stored at `PC`, where the next fetch reads them (R62). -/
def placeWord (s : State) (nbits w : Nat) : State := s.setRam (s.ram.writeAll s.pc.toNat (bytesOfTableWord nbits w))

end Sys2Proof.Machine
end

