-- ==== Sys2Proof/Machine/Step.lean ====
section
/-! DEFINITION. One step of the machine, and the placing of a word where that step fetches it. -/

namespace Sys2Proof.Machine

/-- One strobe of `step` by the driver (spec/10_state.md R23, spec/40_step_cycle.md R60). -/
def step (s : State) : Host.Outcome State Fault Refusal := hostStep s

/-- `s` with an instruction stored at `PC` (log entry 8). -/
def State.withFetchWord (s : State) (nbits w : Nat) : State := placeWord s nbits w

end Sys2Proof.Machine
end

