-- ==== Sys2Proof/Safety.lean ====
section
/-! DEFINITION. The terms in which claims about the machine are made: the invariant of every run (spec/10_state.md
R28), a safe and a final state, and frames ("nothing else changes", spec/00_scope.md R4). -/

namespace Sys2Proof.Machine

/-- No fault has been taken (R21). -/
def State.running (s : State) : Prop := s.fault = 0

/-- What every step keeps (R28), with the bound on pushed addresses that `PC <= 0x10FE` rests on and the canonical form
of memory. -/
structure State.Inv (s : State) : Prop where
  spLe : s.sp.toNat ≤ 16
  keyLe : s.key.toNat ≤ 0x0F
  pcLe : s.pc.toNat ≤ 0x10FE
  stackLe : ∀ k : Fin 16, s.stack[k].toNat ≤ 0x1000
  faultLe : s.fault.toNat ≤ 6
  ramWf : s.ram.wf = true

/-- The instruction whose two bytes stand at `PC` (spec/40_step_cycle.md R62, R63). -/
def State.fetches (s : State) (i : Instr) : Prop :=
  s.pc.toNat + 1 < 4096 ∧ decode (wordOfBytes (s.ram.read s.pc.toNat) (s.ram.read (s.pc.toNat + 1))) = .instr i

/-- The instruction completes: it answers a next state, of which `P` holds. -/
def Completes (i : Instr) (s : State) (P : State → Prop) : Prop := ∃ t, exec i s = .next t ∧ P t

/-- The step answers a next state, of which `P` holds. -/
def StepsTo (s : State) (P : State → Prop) : Prop := ∃ t, step s = .next t ∧ P t

/-- The recommended final predicate (spec/40_step_cycle.md R69): running, and the word at `PC` jumps to `PC`. -/
def State.atSelfJump (s : State) : Prop := s.running ∧ ∃ nnn : Addr12, s.fetches (.jp nnn) ∧ nnn.toNat = s.pc.toNat

/-! ### Frames -/

/-- The parts of `State` a frame speaks of. -/
inductive Part
  | v | i | pc | sp | stack | dt | st | ram | fb | key | fault | info | turns | rnd
  deriving DecidableEq, Repr

/-- The part reads the same in both states; memory through the read of one byte. -/
def Part.Same : Part → State → State → Prop
  | .v, s, t => ∀ r : Reg, t.reg r = s.reg r
  | .i, s, t => t.i = s.i
  | .pc, s, t => t.pc = s.pc
  | .sp, s, t => t.sp = s.sp
  | .stack, s, t => ∀ k : Fin 16, t.stack[k] = s.stack[k]
  | .dt, s, t => t.dt = s.dt
  | .st, s, t => t.st = s.st
  | .ram, s, t => ∀ a : Nat, t.ram.read a = s.ram.read a
  | .fb, s, t => ∀ (row : Fin 32) (col : Fin 64), t.fb.pixel row col = s.fb.pixel row col
  | .key, s, t => t.key = s.key
  | .fault, s, t => t.fault = s.fault
  | .info, s, t => t.faultInfo = s.faultInfo
  | .turns, s, t => t.turns = s.turns
  | .rnd, s, t => t.rndIn = s.rndIn ∧ t.draws = s.draws

/-- Every part but the listed ones is unchanged from `s` to `t` (R4). -/
def SameBut (ps : List Part) (s t : State) : Prop := ∀ p : Part, p ∉ ps → p.Same s t

/-- Every general register but the listed ones is unchanged. -/
def SameRegsBut (rs : List Reg) (s t : State) : Prop := ∀ r : Reg, r ∉ rs → t.reg r = s.reg r

/-- Every byte of memory outside the `n` bytes from `base` is unchanged. -/
def SameBytesBut (base n : Nat) (s t : State) : Prop :=
  ∀ a : Nat, ¬ (base ≤ a ∧ a < base + n) → t.ram.read a = s.ram.read a

/-- The step that took the fault `c` at `s`: the latch and its `info` written and nothing else (R112). -/
def TookFault (c : FaultCause) (s t : State) : Prop :=
  t.fault = c.code ∧ t.faultInfo = c.info ∧ SameBut [.fault, .info] s t

/-! ### What the rules name for each instruction -/

/-- The parts an instruction's own rule lets it write (R4, and the tables of spec/10_state.md R10 to R20): `PC` always,
the latch and its `info` for the five that can fault. -/
def partsWritten : Instr → List Part
  | .cls => [.fb, .pc]
  | .ret => [.sp, .pc, .fault, .info]
  | .jp _ => [.pc]
  | .call _ => [.sp, .stack, .pc, .fault, .info]
  | .seImm _ _ => [.pc]
  | .sneImm _ _ => [.pc]
  | .seReg _ _ => [.pc]
  | .ldImm _ _ => [.v, .pc]
  | .addImm _ _ => [.v, .pc]
  | .ldReg _ _ => [.v, .pc]
  | .orReg _ _ => [.v, .pc]
  | .andReg _ _ => [.v, .pc]
  | .xorReg _ _ => [.v, .pc]
  | .addReg _ _ => [.v, .pc]
  | .subReg _ _ => [.v, .pc]
  | .shr _ _ => [.v, .pc]
  | .subnReg _ _ => [.v, .pc]
  | .shl _ _ => [.v, .pc]
  | .sneReg _ _ => [.pc]
  | .ldI _ => [.i, .pc]
  | .jpV0 _ => [.pc]
  | .rnd _ _ => [.v, .pc, .rnd]
  | .drw _ _ _ => [.fb, .v, .pc, .fault, .info]
  | .skp _ => [.pc]
  | .sknp _ => [.pc]
  | .ldVxDT _ => [.v, .pc]
  | .ldVxK _ => [.v, .pc]
  | .ldDTVx _ => [.dt, .pc]
  | .ldSTVx _ => [.st, .pc]
  | .addI _ => [.i, .pc]
  | .ldF _ => [.i, .pc]
  | .ldB _ => [.ram, .pc, .fault, .info]
  | .storeRegs _ => [.ram, .pc, .fault, .info]
  | .loadRegs _ => [.v, .pc, .fault, .info]

/-- The registers an instruction may write: the "write" rows of R10. -/
def regsWritten : Instr → List Reg
  | .ldImm x _ => [x]
  | .addImm x _ => [x]
  | .ldReg x _ => [x]
  | .orReg x _ => [x]
  | .andReg x _ => [x]
  | .xorReg x _ => [x]
  | .addReg x _ => [x, regF]
  | .subReg x _ => [x, regF]
  | .shr x _ => [x, regF]
  | .subnReg x _ => [x, regF]
  | .shl x _ => [x, regF]
  | .rnd x _ => [x]
  | .drw _ _ _ => [regF]
  | .ldVxDT x => [x]
  | .ldVxK x => [x]
  | .loadRegs x => (List.finRange 16).filter (fun r => r ≤ x)
  | _ => []

/-- How many bytes from `I` an instruction stores (spec/20_memory.md R36). -/
def bytesStored : Instr → Nat
  | .ldB _ => 3
  | .storeRegs x => x.val + 1
  | _ => 0

/-- `next_pc` of a step that does not fault (the table of spec/40_step_cycle.md R64). -/
def nextPc (i : Instr) (s : State) : Word :=
  let skip (c : Bool) : Word := if c then s.pc + 4 else s.pc + 2
  match i with
  | .jp nnn => nnn.setWidth 16
  | .call nnn => nnn.setWidth 16
  | .jpV0 nnn => nnn.setWidth 16 + (s.reg 0).setWidth 16
  | .ret => s.stack.toList.getD (s.sp.toNat - 1) 0
  | .seImm x nn => skip (s.reg x == nn)
  | .sneImm x nn => skip (s.reg x != nn)
  | .seReg x y => skip (s.reg x == s.reg y)
  | .sneReg x y => skip (s.reg x != s.reg y)
  | .skp x => skip (s.key == s.reg x)
  | .sknp x => skip (s.key != s.reg x)
  | .ldVxK _ => if s.key = 0 then s.pc else s.pc + 2
  | _ => s.pc + 2

/-! ### The cells of a draw (spec/45_display.md R99, R100) -/

/-- The row a sprite row lands on: `(V[y] + r) mod 32`. -/
def cellRow (vy : Byte) (r : Nat) : Fin 32 := Fin.ofNat 32 (vy.toNat + r)

/-- The column a sprite column lands on: `(V[x] + c) mod 64`. -/
def cellCol (vx : Byte) (c : Nat) : Fin 64 := Fin.ofNat 64 (vx.toNat + c)

/-- The sprite's bit at row `r`, column offset `c`: bit `7 - c` of the byte at `I + r` (R99). -/
def State.spriteBitAt (s : State) (r c : Nat) : Bool := (s.ram.read (s.i.toNat + r)).getLsbD (7 - c)

/-! ### Runs of the host and the core -/

/-- The machine booted, with what the host will do and the bytes it injects: any of them (spec/00_scope.md R5). -/
def bootWith (font : FontSource) (rom : RomSource) (turns : List HostTurn) (rnd : List Byte) : State :=
  { boot font rom with turns := turns, rndIn := rnd }

/-- Consecutive `2nnn` executed at exec level, each from the state the one before leaves; none if one does not answer
a next state. -/
def callAll : List Addr12 → State → Option State
  | [], s => some s
  | nnn :: rest, s =>
    match exec (.call nnn) s with
    | .next t => callAll rest t
    | .fault _ => none
    | .refused _ => none

end Sys2Proof.Machine
end

