-- ==== Sys2Proof/Certificates/Slice0/Obligations.lean ====
section
/-! DEFINITION. The statements for the provers. Each docstring names the rule of spec/ it formalises, and the spec's own
decision D<n> (spec/92_eei_decisions.md) or the log entry where a clause rests on one. -/

open Sys2Proof Sys2Proof.Machine

/-! ### Reset -/

/-- The reset state (R27, R131). The zeros but `PC`, `SP` and `ram` are the spec's decision D4, log entry 1; the font's
base and bytes are the parameters of log entry 7, named and not valued here. -/
def Obligations.ResetLeavesTheStatedValues : Prop :=
  State.reset.pc = 0x0200 ∧ State.reset.sp = 0 ∧ State.reset.i = 0 ∧ State.reset.dt = 0 ∧ State.reset.st = 0
  ∧ State.reset.key = 0 ∧ State.reset.fault = 0
  ∧ (∀ r : Reg, State.reset.reg r = 0) ∧ (∀ k : Fin 16, State.reset.stack[k] = 0)
  ∧ (∀ (row : Fin 32) (col : Fin 64), State.reset.fb.pixel row col = false)
  ∧ (∀ a : Nat, ¬ (Config.fontBase ≤ a ∧ a < Config.fontBase + 80) → State.reset.ram.read a = 0)
  ∧ (∀ k : Nat, k < 80 → State.reset.ram.read (Config.fontBase + k) = Config.fontTable.getD k 0)

/-- The boot sequence with a ROM that fits (R132; the empty ROM is accepted, D27), whatever font the host presents: the
ROM's bytes stand at `0x200` upward and zeros above them, and nothing but memory differs from the reset state. -/
def Obligations.BootCopiesTheRom : Prop :=
  ∀ (font : Font) (rom : List Byte), rom.length ≤ 3584 →
    (∀ (k : Nat) (h : k < rom.length), (boot (.bytes font) (.bytes rom)).ram.read (0x200 + k) = rom[k])
    ∧ (∀ a : Nat, 0x200 + rom.length ≤ a → (boot (.bytes font) (.bytes rom)).ram.read a = 0)
    ∧ SameBut [.ram] State.reset (boot (.bytes font) (.bytes rom))

/-- The font the host presents (R130, R132 steps 2 and 3), whatever ROM comes with it: its 80 bytes stand at `FONT_BASE` in
order, the rest of the low region is zero, and an offered font is taken exactly when it has 80 bytes (U31, D27). That a font
that cannot be read leaves the low region zero, and that a ROM that cannot be read leaves the font there, are the model's
choice, log entry 19: no rule gives memory after an `IOError`. The base is the parameter of log entry 7, named and not valued here. That
`State.reset` is the boot of `FONT_TABLE` and the empty ROM is the model's choice, log entry 8. -/
def Obligations.BootCopiesTheFont : Prop :=
  ∀ src : RomSource,
    (∀ (font : Font) (k : Fin 80), (boot (.bytes font) src).ram.read (Config.fontBase + k.val) = font[k])
    ∧ (∀ (font : Font) (a : Nat), a < 0x200 → ¬ (Config.fontBase ≤ a ∧ a < Config.fontBase + 80) →
        (boot (.bytes font) src).ram.read a = 0)
    ∧ (∀ a : Nat, a < 0x200 → (boot .unreadable src).ram.read a = 0)
    ∧ (∀ bytes : List Byte,
        (bytes.length = 80 → ∃ font : Font, FontSource.ofBytes bytes = some (.bytes font) ∧ font.toList = bytes)
        ∧ (bytes.length ≠ 80 → FontSource.ofBytes bytes = none))
    ∧ boot .standard (.bytes []) = State.reset

/-- A load that fails (R110, R115; the hardware form is decision D27, log entry 19): more than 3584 bytes halt the core with
`RomTooLarge`, a font or a ROM that cannot be read with `IOError`, no ROM byte is loaded, everything but the low memory is
at its reset value, and the core never steps: every later run leaves only the host's latch and schedule changed. That
the state after an `IOError` is the reset state with zeros from `0x200` up is the model's choice, log entry 19: no rule
gives it. -/
def Obligations.FailedLoadNeverSteps : Prop :=
  ∀ (font : FontSource) (src : RomSource) (c : FaultCause),
    ((∃ bytes rom, font = .bytes bytes ∧ src = .bytes rom ∧ rom.length > 3584 ∧ c = .romTooLarge rom.length)
      ∨ ((font = .unreadable ∨ src = .unreadable) ∧ c = .ioError)) →
    (boot font src).fault = c.code ∧ (boot font src).faultInfo = c.info
    ∧ (∀ a : Nat, 0x200 ≤ a → (boot font src).ram.read a = 0)
    ∧ SameBut [.ram, .fault, .info] State.reset (boot font src)
    ∧ ∀ (turns : List HostTurn) (rnd : List Byte) (k : Nat),
        ∃ t, Sys2Proof.core.run k (bootWith font src turns rnd) = .next t
          ∧ SameBut [.key, .turns] (bootWith font src turns rnd) t

/-! ### Encoding -/

/-- A few words written out from the patterns of R50 decode to the instructions they stand for, and the source's own
example of an illegal word is rejected (R55). -/
def Obligations.SampleWordsDecode : Prop :=
  decode 0x00E0 = .instr .cls ∧ decode 0x220A = .instr (.call 0x20A) ∧ decode 0x3100 = .instr (.seImm 1 0x00)
  ∧ decode 0x8AB4 = .instr (.addReg 0xA 0xB) ∧ decode 0xA300 = .instr (.ldI 0x300) ∧ decode 0xD5A3 = .instr (.drw 5 0xA 3)
  ∧ decode 0xE29E = .instr (.skp 2) ∧ decode 0xF265 = .instr (.loadRegs 2) ∧ decode 0x5001 = .illegalOpcode 0x5001

/-- Every instruction, with every operand at every value its field admits, is read back from its word (R46, R50). -/
def Obligations.DecodeAfterEncode : Prop := ∀ i : Instr, decode (encode i) = .instr i

/-- Every legal word is the word of the instruction it decodes to: no bit of it is dropped (R46, R50). -/
def Obligations.EncodeAfterDecode : Prop := ∀ (op : Word) (i : Instr), decode op = .instr i → encode i = op

/-- The decoder accepts exactly the words that select a row of R50's table, and no word selects two rows (R50, R55). -/
def Obligations.LegalWordsSelectOneRow : Prop :=
  (∀ op : Word, (∃ i, decode op = .instr i) ↔ ∃ r ∈ opcodeTable, op &&& r.mask = r.pattern)
  ∧ (∀ (op : Word) (j k : Fin opcodeTable.length),
      op &&& opcodeTable[j].mask = opcodeTable[j].pattern → op &&& opcodeTable[k].mask = opcodeTable[k].pattern → j = k)

/-- The illegal words are exactly the six classes R55 lists (a list the spec marks as derived from R50). -/
def Obligations.IllegalWordsByClass : Prop :=
  ∀ op : Word, decode op = .illegalOpcode op ↔
    let c := op.extractLsb' 12 4
    let n := op.extractLsb' 0 4
    let nn := op.extractLsb' 0 8
    (c = 0x0 ∧ op ≠ 0x00E0 ∧ op ≠ 0x00EE) ∨ (c = 0x5 ∧ n ≠ 0) ∨ (c = 0x9 ∧ n ≠ 0)
    ∨ (c = 0x8 ∧ n ∈ [0x8#4, 0x9#4, 0xA#4, 0xB#4, 0xC#4, 0xD#4, 0xF#4])
    ∨ (c = 0xE ∧ nn ∉ [0x9E#8, 0xA1#8])
    ∨ (c = 0xF ∧ nn ∉ [0x07#8, 0x0A#8, 0x15#8, 0x18#8, 0x1E#8, 0x29#8, 0x33#8, 0x55#8, 0x65#8])

/-! ### The step -/

/-- Fetch (R62): two bytes, the first in bits 15:8, at any `PC` below `0xFFF`, odd ones included; `OutOfBounds` from
`0xFFF` on. -/
def Obligations.FetchReadsTwoBytesBigEndian : Prop :=
  ∀ s : State,
    (s.pc.toNat < 0xFFF → ∃ op, fetch s = .ok op ∧ op.extractLsb' 8 8 = s.ram.read s.pc.toNat
      ∧ op.extractLsb' 0 8 = s.ram.read (s.pc.toNat + 1))
    ∧ (0xFFF ≤ s.pc.toNat → ∃ a, 4096 ≤ a ∧ fetch s = .error (.outOfBounds a))

/-- A step of a running core runs the instruction whose bytes stand at `PC` (R60 to R63), on the state the host's turn
leaves: the step is exec of it, and then the tick, if its input is 1 and the instruction has not faulted (R66, R68;
the `tick` input is decision D11, no tick on a fault D9). -/
def Obligations.StepRunsTheDecodedInstruction : Prop :=
  ∀ (s : State) (i : Instr), s.running → s.fetches i →
    step s = endStep s.turn.tick (exec i s.afterTurn)
    ∧ (∀ u, exec i s.afterTurn = .next u → u.running → s.turn.tick = true →
        StepsTo s fun t => t.dt = (if u.dt = 0 then 0 else u.dt - 1) ∧ t.st = (if u.st = 0 then 0 else u.st - 1)
          ∧ SameBut [.dt, .st] u t)
    ∧ (∀ u, exec i s.afterTurn = .next u → (¬ u.running ∨ s.turn.tick = false) → step s = .next u)

/-- What the host's turn does before a step (R5, R20; it lands at the boundary, D28, log entries 2 and 4): the latch
takes the 4-bit code it writes, or stays, and nothing else of the machine changes. -/
def Obligations.HostTurnWritesOnlyTheLatch : Prop :=
  ∀ s : State,
    SameBut [.key, .turns] s s.afterTurn
    ∧ (∀ code, s.turn.key = some code → s.afterTurn.key.toNat = code.toNat)
    ∧ (s.turn.key = none → s.afterTurn.key = s.key)

/-- A running core whose `PC` is `0xFFF` or more faults at the fetch with `info = max(PC, 4096)` and changes nothing else
(R62, R111; precision and the code are decisions D9 and D10, log entry 5). -/
def Obligations.FetchOutsideMemoryFaults : Prop :=
  ∀ s : State, s.running → 0xFFF ≤ s.pc.toNat →
    StepsTo s fun t => TookFault (.outOfBounds (max s.pc.toNat 4096)) s.afterTurn t

/-- A running core that fetches an illegal word takes `IllegalOpcode` with the word as `info` and changes nothing else,
the timers included (R55, R112; D9 and D10, log entry 5). -/
def Obligations.IllegalWordFaults : Prop :=
  ∀ (s : State) (op : Word), s.running → s.pc.toNat + 1 < 4096 →
    op = wordOfBytes (s.ram.read s.pc.toNat) (s.ram.read (s.pc.toNat + 1)) → decode op = .illegalOpcode op →
    StepsTo s fun t => TookFault (.illegalOpcode op) s.afterTurn t

/-- While `FAULT` is not 0, any number of steps changes nothing but what the host itself writes (R113; D9, log entry 5). -/
def Obligations.HaltedForGood : Prop :=
  ∀ (k : Nat) (s : State), ¬ s.running → ∃ t, Sys2Proof.core.run k s = .next t ∧ SameBut [.key, .turns] s t

/-- A step that faults changes nothing but `FAULT` and its `info`: not `PC`, not the timers, no register, stack entry,
byte or pixel (R68, R112; D9, log entry 5). -/
def Obligations.FaultingStepIsPrecise : Prop :=
  ∀ s t : State, s.running → step s = .next t → ¬ t.running → SameBut [.fault, .info] s.afterTurn t

/-- Which instruction can fault in execute, when, and with which fault (R65, R111, R114): `00EE`, `2nnn`, `Dxyn`, `Fx33`,
`Fx55`, `Fx65`, and no other. The codes and infos are decision D10, the precision D9, log entry 5. -/
def Obligations.OnlyListedInstructionsFault : Prop :=
  ∀ (i : Instr) (s t : State), s.running → exec i s = .next t → ¬ t.running →
    (i = .ret ∧ s.sp = 0 ∧ TookFault .stackUnderflow s t)
    ∨ ((∃ nnn, i = .call nnn) ∧ s.sp = 16 ∧ TookFault .stackOverflow s t)
    ∨ ((∃ x y n, i = .drw x y n ∧ n ≠ 0 ∧ s.i.toNat + n.toNat > 4096) ∧ TookFault (.outOfBounds (max s.i.toNat 4096)) s t)
    ∨ ((∃ x, i = .ldB x) ∧ s.i.toNat + 2 ≥ 4096 ∧ TookFault (.outOfBounds (max s.i.toNat 4096)) s t)
    ∨ ((∃ x, (i = .storeRegs x ∨ i = .loadRegs x) ∧ s.i.toNat + x.val ≥ 4096)
        ∧ TookFault (.outOfBounds (max s.i.toNat 4096)) s t)

/-- The program counter after every instruction (the table of R64), and after a fault. -/
def Obligations.ProgramCounterTable : Prop :=
  ∀ (i : Instr) (s t : State), s.running → exec i s = .next t →
    (t.running → t.pc = nextPc i s) ∧ (¬ t.running → t.pc = s.pc)

/-- The order of stages shows in the timers (R67, which the spec derives; the tick's input is D11): `Fx15` and `Fx18`
write before the tick of their own step, `Fx07` reads before it. -/
def Obligations.TimerWriteComesBeforeTheTick : Prop :=
  ∀ (s : State) (x : Reg), s.running →
    (s.fetches (.ldDTVx x) → StepsTo s fun t =>
      t.dt.toNat = if s.turn.tick then (s.reg x).toNat - 1 else (s.reg x).toNat)
    ∧ (s.fetches (.ldSTVx x) → StepsTo s fun t =>
      t.st.toNat = if s.turn.tick then (s.reg x).toNat - 1 else (s.reg x).toNat)
    ∧ (s.fetches (.ldVxDT x) → StepsTo s fun t =>
      t.reg x = s.dt ∧ t.dt.toNat = if s.turn.tick then s.dt.toNat - 1 else s.dt.toNat)

/-! ### Control transfer -/

/-- `00EE` (R70). -/
def Obligations.ReturnPopsTheStack : Prop :=
  ∀ s : State,
    (s.sp = 0 → Completes .ret s (TookFault .stackUnderflow s))
    ∧ (∀ h : 1 ≤ s.sp.toNat ∧ s.sp.toNat ≤ 16, Completes .ret s fun t =>
        t.pc = s.stack[s.sp.toNat - 1] ∧ t.sp.toNat = s.sp.toNat - 1 ∧ SameBut [.pc, .sp] s t)

/-- `1nnn` (R71). -/
def Obligations.JumpSetsTheProgramCounter : Prop :=
  ∀ (nnn : Addr12) (s : State), Completes (.jp nnn) s fun t => t.pc.toNat = nnn.toNat ∧ SameBut [.pc] s t

/-- `2nnn` (R72). That the pushed value is `pc0 + 2` is decision D13 (conflict C2), log entry 12. -/
def Obligations.CallPushesTheReturnAddress : Prop :=
  ∀ (nnn : Addr12) (s : State),
    (s.sp = 16 → Completes (.call nnn) s (TookFault .stackOverflow s))
    ∧ (s.sp.toNat < 16 → Completes (.call nnn) s fun t =>
        t.pc.toNat = nnn.toNat ∧ t.sp.toNat = s.sp.toNat + 1
        ∧ (∀ k : Fin 16, t.stack[k] = if k.val = s.sp.toNat then s.pc + 2 else s.stack[k])
        ∧ SameBut [.pc, .sp, .stack] s t)

/-- `Bnnn` (R73): the exact sum with `V0`. That it is not reduced mod 4096 is decision D1, log entry 10. -/
def Obligations.IndexedJumpAddsV0 : Prop :=
  ∀ (nnn : Addr12) (s : State),
    Completes (.jpV0 nnn) s fun t => t.pc.toNat = nnn.toNat + (s.reg 0).toNat ∧ SameBut [.pc] s t

/-- Outside the range R14 gives `SP` the model stops by name: its own choice, log entry 6. -/
def Obligations.StackPointerOutOfRangeStops : Prop :=
  ∀ (nnn : Addr12) (s : State), 16 < s.sp.toNat →
    exec (.call nnn) s = .fault .spOutOfRange ∧ exec .ret s = .fault .spOutOfRange

/-- A `2nnn` and the `00EE` that meets its stack return to the instruction after the `CALL` with `SP` restored, whatever
the subroutine did to anything but the stack (R72; D13, log entry 12). -/
def Obligations.CallThenReturn : Prop :=
  ∀ (nnn : Addr12) (s t u : State), s.sp.toNat < 16 → exec (.call nnn) s = .next t →
    SameBut [.v, .i, .pc, .dt, .st, .ram, .fb, .key, .fault, .info, .turns, .rnd] t u →
    Completes .ret u fun w => w.pc = s.pc + 2 ∧ w.sp = s.sp

/-- Sixteen nested calls from an empty stack succeed, whatever their targets, and the seventeenth signals
`StackOverflow` (R72; the pushed value is D13). -/
def Obligations.SeventeenthCallOverflows : Prop :=
  ∀ (targets : List Addr12) (s : State), s.sp = 0 → targets.length = 16 →
    ∃ t, callAll targets s = some t ∧ t.sp = 16
      ∧ ∀ nnn : Addr12, Completes (.call nnn) t (TookFault .stackOverflow t)

/-! ### Skips -/

/-- `3xnn`, `4xnn`, `5xy0`, `9xy0` (R74 to R77). -/
def Obligations.RegisterSkips : Prop :=
  ∀ (x y : Reg) (nn : Byte) (s : State),
    (Completes (.seImm x nn) s fun t => t.pc = (if s.reg x = nn then s.pc + 4 else s.pc + 2) ∧ SameBut [.pc] s t)
    ∧ (Completes (.sneImm x nn) s fun t => t.pc = (if s.reg x ≠ nn then s.pc + 4 else s.pc + 2) ∧ SameBut [.pc] s t)
    ∧ (Completes (.seReg x y) s fun t => t.pc = (if s.reg x = s.reg y then s.pc + 4 else s.pc + 2) ∧ SameBut [.pc] s t)
    ∧ (Completes (.sneReg x y) s fun t => t.pc = (if s.reg x ≠ s.reg y then s.pc + 4 else s.pc + 2) ∧ SameBut [.pc] s t)

/-- `Ex9E` and `ExA1` (R102, R103): plain 8-bit equality with the latch, decision D15, log entry 14. -/
def Obligations.KeySkips : Prop :=
  ∀ (x : Reg) (s : State),
    (Completes (.skp x) s fun t => t.pc = (if s.key = s.reg x then s.pc + 4 else s.pc + 2) ∧ SameBut [.pc] s t)
    ∧ (Completes (.sknp x) s fun t => t.pc = (if s.key ≠ s.reg x then s.pc + 4 else s.pc + 2) ∧ SameBut [.pc] s t)

/-! ### Load, arithmetic, logic, shift, random -/

/-- `6xnn` and `7xnn` (R78, R79): the sum wraps, no flag is touched, and the source's property of the two in a row. -/
def Obligations.ImmediateLoadAndAdd : Prop :=
  ∀ (x : Reg) (nn : Byte) (s : State),
    (Completes (.ldImm x nn) s fun t =>
      t.reg x = nn ∧ t.pc = s.pc + 2 ∧ SameRegsBut [x] s t ∧ SameBut [.v, .pc] s t)
    ∧ (Completes (.addImm x nn) s fun t =>
      (t.reg x).toNat = ((s.reg x).toNat + nn.toNat) % 256 ∧ t.pc = s.pc + 2 ∧ SameRegsBut [x] s t ∧ SameBut [.v, .pc] s t)
    ∧ (∀ nn₂ : Byte, Completes (.ldImm x nn) s fun t => Completes (.addImm x nn₂) t fun u =>
      (u.reg x).toNat = (nn.toNat + nn₂.toNat) % 256 ∧ SameRegsBut [x] s u)

/-- `8xy0`, `8xy1`, `8xy2`, `8xy3` (R81 to R84): every bit of the result, and no flag. -/
def Obligations.AssignAndLogic : Prop :=
  ∀ (x y : Reg) (s : State),
    (Completes (.ldReg x y) s fun t =>
      t.reg x = s.reg y ∧ t.pc = s.pc + 2 ∧ SameRegsBut [x] s t ∧ SameBut [.v, .pc] s t)
    ∧ (Completes (.orReg x y) s fun t =>
      (∀ k : Nat, (t.reg x).getLsbD k = ((s.reg x).getLsbD k || (s.reg y).getLsbD k)) ∧ t.pc = s.pc + 2
      ∧ SameRegsBut [x] s t ∧ SameBut [.v, .pc] s t)
    ∧ (Completes (.andReg x y) s fun t =>
      (∀ k : Nat, (t.reg x).getLsbD k = ((s.reg x).getLsbD k && (s.reg y).getLsbD k)) ∧ t.pc = s.pc + 2
      ∧ SameRegsBut [x] s t ∧ SameBut [.v, .pc] s t)
    ∧ (Completes (.xorReg x y) s fun t =>
      (∀ k : Nat, (t.reg x).getLsbD k = ((s.reg x).getLsbD k ^^ (s.reg y).getLsbD k)) ∧ t.pc = s.pc + 2
      ∧ SameRegsBut [x] s t ∧ SameBut [.v, .pc] s t)

/-- `8xy4` (R85). With `x = 0xF` the flag survives: decision D12, log entry 9. -/
def Obligations.AddWithCarryOut : Prop :=
  ∀ (x y : Reg) (s : State), Completes (.addReg x y) s fun t =>
    t.reg regF = (if (s.reg x).toNat + (s.reg y).toNat > 255 then 1 else 0)
    ∧ (x ≠ regF → (t.reg x).toNat = ((s.reg x).toNat + (s.reg y).toNat) % 256)
    ∧ t.pc = s.pc + 2 ∧ SameRegsBut [x, regF] s t ∧ SameBut [.v, .pc] s t

/-- `8xy5` and `8xy7` (R86, R88): the two treat equal operands differently (conflict C10). With `x = 0xF` the flag
survives: decision D12, log entry 9. -/
def Obligations.SubtractAndReverseSubtract : Prop :=
  ∀ (x y : Reg) (s : State),
    (Completes (.subReg x y) s fun t =>
      t.reg regF = (if (s.reg x).toNat > (s.reg y).toNat then 1 else 0)
      ∧ (x ≠ regF → (t.reg x).toNat = ((s.reg x).toNat + 256 - (s.reg y).toNat) % 256)
      ∧ t.pc = s.pc + 2 ∧ SameRegsBut [x, regF] s t ∧ SameBut [.v, .pc] s t)
    ∧ (Completes (.subnReg x y) s fun t =>
      t.reg regF = (if (s.reg y).toNat ≥ (s.reg x).toNat then 1 else 0)
      ∧ (x ≠ regF → (t.reg x).toNat = ((s.reg y).toNat + 256 - (s.reg x).toNat) % 256)
      ∧ t.pc = s.pc + 2 ∧ SameRegsBut [x, regF] s t ∧ SameBut [.v, .pc] s t)

/-- `8xy6` and `8xyE` (R87, R89): `V[x]` is shifted by one, `y` has no effect, `VF` is the bit shifted out. With
`x = 0xF` the flag survives: decision D12, log entry 9. -/
def Obligations.ShiftsByOne : Prop :=
  ∀ (x y : Reg) (s : State),
    (Completes (.shr x y) s fun t =>
      t.reg regF = (if (s.reg x).getLsbD 0 then 1 else 0)
      ∧ (x ≠ regF → (t.reg x).toNat = (s.reg x).toNat / 2)
      ∧ t.pc = s.pc + 2 ∧ SameRegsBut [x, regF] s t ∧ SameBut [.v, .pc] s t)
    ∧ (Completes (.shl x y) s fun t =>
      t.reg regF = (if (s.reg x).getLsbD 7 then 1 else 0)
      ∧ (x ≠ regF → (t.reg x).toNat = 2 * (s.reg x).toNat % 256)
      ∧ t.pc = s.pc + 2 ∧ SameRegsBut [x, regF] s t ∧ SameBut [.v, .pc] s t)

/-- `Cxnn` (R91): the next byte of the random source, whichever it is, masked; exactly one byte is consumed. That the
source is a free stream is decision D18, log entry 3. -/
def Obligations.RandomByteIsMasked : Prop :=
  ∀ (x : Reg) (nn : Byte) (s : State), Completes (.rnd x nn) s fun t =>
    t.reg x = s.rndByte &&& nn ∧ t.reg x &&& ~~~nn = 0
    ∧ (∀ (b : Byte) (rest : List Byte), s.rndIn = b :: rest → t.reg x = b &&& nn ∧ t.rndIn = rest)
    ∧ t.draws = s.draws + 1 ∧ t.pc = s.pc + 2 ∧ SameRegsBut [x] s t ∧ SameBut [.v, .pc, .rnd] s t

/-! ### The index register and memory -/

/-- `Annn` (R92): the top four bits of `I` become 0. -/
def Obligations.LoadIndex : Prop :=
  ∀ (nnn : Addr12) (s : State),
    Completes (.ldI nnn) s fun t => t.i.toNat = nnn.toNat ∧ t.pc = s.pc + 2 ∧ SameBut [.i, .pc] s t

/-- `Fx1E` (R93; the wrap at 16 bits is decision D26) and `Fx29` (R94; the byte is not masked, D17; the base is the
parameter of log entry 7): `VF` is not written. -/
def Obligations.AddToIndexAndGlyphAddress : Prop :=
  ∀ (x : Reg) (s : State),
    (Completes (.addI x) s fun t =>
      t.i.toNat = (s.i.toNat + (s.reg x).toNat) % 65536 ∧ t.pc = s.pc + 2 ∧ SameBut [.i, .pc] s t)
    ∧ (Completes (.ldF x) s fun t =>
      t.i.toNat = Config.fontBase + 5 * (s.reg x).toNat ∧ t.pc = s.pc + 2 ∧ SameBut [.i, .pc] s t)

/-- `Fx33` (R95): hundreds, tens and ones at `I`, `I+1`, `I+2`, or `OutOfBounds` with nothing written. -/
def Obligations.DecimalDigitsAreStored : Prop :=
  ∀ (x : Reg) (s : State), s.ram.wf = true →
    (s.i.toNat + 2 < 4096 → Completes (.ldB x) s fun t =>
      (t.ram.read s.i.toNat).toNat = (s.reg x).toNat / 100
      ∧ (t.ram.read (s.i.toNat + 1)).toNat = (s.reg x).toNat / 10 % 10
      ∧ (t.ram.read (s.i.toNat + 2)).toNat = (s.reg x).toNat % 10
      ∧ t.pc = s.pc + 2 ∧ SameBytesBut s.i.toNat 3 s t ∧ SameBut [.ram, .pc] s t)
    ∧ (4096 ≤ s.i.toNat + 2 → Completes (.ldB x) s (TookFault (.outOfBounds (max s.i.toNat 4096)) s))

/-- `Fx55` (R96): `V0..Vx` at `I..I+x`, `V0` lowest, `I` unchanged, or `OutOfBounds` with nothing written. The store
succeeds below `0x200` too. -/
def Obligations.RegistersAreStored : Prop :=
  ∀ (x : Reg) (s : State), s.ram.wf = true →
    (s.i.toNat + x.val < 4096 → Completes (.storeRegs x) s fun t =>
      (∀ r : Reg, r ≤ x → t.ram.read (s.i.toNat + r.val) = s.reg r)
      ∧ t.pc = s.pc + 2 ∧ SameBytesBut s.i.toNat (x.val + 1) s t ∧ SameBut [.ram, .pc] s t)
    ∧ (4096 ≤ s.i.toNat + x.val → Completes (.storeRegs x) s (TookFault (.outOfBounds (max s.i.toNat 4096)) s))

/-- `Fx65` (R97): `ram[I..I+x]` to `V0..Vx`, the registers above untouched, `I` unchanged, or `OutOfBounds` with nothing
loaded; and the source's round trip: a store of `V0..Vx` followed by the load at the same `I` restores them, whatever
the registers became in between. -/
def Obligations.RegistersAreLoaded : Prop :=
  ∀ (x : Reg) (s : State),
    (s.i.toNat + x.val < 4096 → Completes (.loadRegs x) s fun t =>
      (∀ r : Reg, r ≤ x → t.reg r = s.ram.read (s.i.toNat + r.val)) ∧ (∀ r : Reg, x < r → t.reg r = s.reg r)
      ∧ t.pc = s.pc + 2 ∧ SameBut [.v, .pc] s t)
    ∧ (4096 ≤ s.i.toNat + x.val → Completes (.loadRegs x) s (TookFault (.outOfBounds (max s.i.toNat 4096)) s))
    ∧ (s.ram.wf = true → s.i.toNat + x.val < 4096 → Completes (.storeRegs x) s fun t =>
        ∀ u : State, u.i = t.i → u.ram = t.ram → Completes (.loadRegs x) u fun w => ∀ r : Reg, r ≤ x → w.reg r = s.reg r)

/-- Self-modifying code (R41, which the spec derives): the word a store leaves is the word the next fetch at that
address reads, with no fence. -/
def Obligations.StoreIsSeenByTheNextFetch : Prop :=
  ∀ (x : Reg) (s t : State) (r : Reg), s.ram.wf = true → s.i.toNat + x.val < 4096 → r < x →
    exec (.storeRegs x) s = .next t → t.pc.toNat = s.i.toNat + r.val →
    fetch t = .ok (wordOfBytes (s.reg r) (s.reg (r + 1)))

/-- Two memories in canonical form that read the same everywhere are the same data (the form is the model's, log
entry 8). -/
def Obligations.CanonicalMemoryIsUnique : Prop :=
  ∀ m m' : Memory, m.wf = true → m'.wf = true → (∀ a : Nat, a < 4096 → m.read a = m'.read a) → m = m'

/-! ### Display -/

/-- `00E0` (R98): all 2048 cells become 0 and `VF` is not written. -/
def Obligations.ClearZeroesEveryPixel : Prop :=
  ∀ s : State, Completes .cls s fun t =>
    (∀ (row : Fin 32) (col : Fin 64), t.fb.pixel row col = false) ∧ t.pc = s.pc + 2 ∧ SameBut [.fb, .pc] s t

/-- `Dxyn` (R99 to R101): every cell a sprite bit lands on is XORed with that bit, each pixel wrapped on its own (D20),
every other cell stays, and `VF` is 1 exactly when a bit of 1 met a lit cell (D19); `n = 0` draws nothing and cannot
fault (D24); a sprite byte outside `ram` is `OutOfBounds` with nothing drawn (D9). Log entry 16. -/
def Obligations.DrawXorsTheSprite : Prop :=
  ∀ (x y : Reg) (n : Nibble) (s : State),
    (n = 0 ∨ s.i.toNat + n.toNat ≤ 4096 → Completes (.drw x y n) s fun t =>
      (∀ r c : Nat, r < n.toNat → c < 8 →
        t.fb.pixel (cellRow (s.reg y) r) (cellCol (s.reg x) c)
          = (s.fb.pixel (cellRow (s.reg y) r) (cellCol (s.reg x) c) ^^ s.spriteBitAt r c))
      ∧ (∀ (row : Fin 32) (col : Fin 64),
          (∀ r c : Nat, r < n.toNat → c < 8 → ¬ (cellRow (s.reg y) r = row ∧ cellCol (s.reg x) c = col)) →
          t.fb.pixel row col = s.fb.pixel row col)
      ∧ ((t.reg regF = 1 ∧ ∃ r c : Nat, r < n.toNat ∧ c < 8 ∧ s.spriteBitAt r c = true
            ∧ s.fb.pixel (cellRow (s.reg y) r) (cellCol (s.reg x) c) = true)
        ∨ (t.reg regF = 0 ∧ ∀ r c : Nat, r < n.toNat → c < 8 → s.spriteBitAt r c = true →
            s.fb.pixel (cellRow (s.reg y) r) (cellCol (s.reg x) c) = false))
      ∧ t.pc = s.pc + 2 ∧ SameRegsBut [regF] s t ∧ SameBut [.fb, .v, .pc] s t)
    ∧ (n ≠ 0 → 4096 < s.i.toNat + n.toNat →
        Completes (.drw x y n) s (TookFault (.outOfBounds (max s.i.toNat 4096)) s))

/-- XOR idempotence (R101, a property the spec derives from its pseudocode): the same sprite drawn again at the same
position restores every cell, and the second draw sets `VF` exactly when a sprite bit of 1 covers a cell that was 0
before the first. The state `u` of the second draw is any that keeps the first's screen, the sprite and the position,
so the forms that name `VF` as a coordinate are covered. -/
def Obligations.DrawingTwiceRestoresTheScreen : Prop :=
  ∀ (x y : Reg) (n : Nibble) (s t u : State), (n = 0 ∨ s.i.toNat + n.toNat ≤ 4096) → exec (.drw x y n) s = .next t →
    u.fb = t.fb → u.ram = s.ram → u.i = s.i → u.reg x = s.reg x → u.reg y = s.reg y →
    Completes (.drw x y n) u fun w =>
      (∀ (row : Fin 32) (col : Fin 64), w.fb.pixel row col = s.fb.pixel row col)
      ∧ (w.reg regF = 1 ↔ ∃ r c : Nat, r < n.toNat ∧ c < 8 ∧ s.spriteBitAt r c = true
          ∧ s.fb.pixel (cellRow (s.reg y) r) (cellCol (s.reg x) c) = false)

/-! ### Keypad and timers -/

/-- `Fx0A` (R104): with no key held nothing changes and `PC` stays, else the code is loaded; a waiting step still ends with
its tick (R66, which the spec derives; the tick's input is decision D11, log entry 20). -/
def Obligations.WaitForKey : Prop :=
  ∀ (x : Reg) (s : State),
    (s.key = 0 → exec (.ldVxK x) s = .next s)
    ∧ (s.key ≠ 0 → Completes (.ldVxK x) s fun t =>
        t.reg x = s.key ∧ t.pc = s.pc + 2 ∧ SameRegsBut [x] s t ∧ SameBut [.v, .pc] s t)
    ∧ (s.running → s.fetches (.ldVxK x) → s.afterTurn.key = 0 → StepsTo s fun t =>
        t.pc = s.pc ∧ t.dt.toNat = (if s.turn.tick then s.dt.toNat - 1 else s.dt.toNat)
        ∧ t.st.toNat = (if s.turn.tick then s.st.toNat - 1 else s.st.toNat) ∧ SameBut [.dt, .st, .key, .turns] s t)

/-- `Fx07`, `Fx15`, `Fx18` (R105 to R107): the instruction's own effect, before the tick of the step. -/
def Obligations.TimerMoves : Prop :=
  ∀ (x : Reg) (s : State),
    (Completes (.ldVxDT x) s fun t => t.reg x = s.dt ∧ t.pc = s.pc + 2 ∧ SameRegsBut [x] s t ∧ SameBut [.v, .pc] s t)
    ∧ (Completes (.ldDTVx x) s fun t => t.dt = s.reg x ∧ t.pc = s.pc + 2 ∧ SameBut [.dt, .pc] s t)
    ∧ (Completes (.ldSTVx x) s fun t => t.st = s.reg x ∧ t.pc = s.pc + 2 ∧ SameBut [.st, .pc] s t)

/-! ### The whole machine -/

/-- The frame of every instruction (R4, R10): it changes only the parts, the registers and the bytes from `I` that its own
rule names. -/
def Obligations.EveryInstructionKeepsItsFrame : Prop :=
  ∀ (i : Instr) (s t : State), exec i s = .next t →
    SameBut (partsWritten i) s t ∧ SameRegsBut (regsWritten i) s t ∧ SameBytesBut s.i.toNat (bytesStored i) s t

/-- Only these instructions write these parts, said of a whole step (R12, R14, R19, R20, R43): `SP` by `2nnn` and `00EE`,
the framebuffer by `00E0` and `Dxyn`, `I` by `Annn`, `Fx1E` and `Fx29`, a byte of `ram` by `Fx33` and `Fx55`, and the key
latch by the host alone. -/
def Obligations.OnlyTheirInstructionsWrite : Prop :=
  ∀ s t : State, step s = .next t →
    (t.sp ≠ s.sp → s.fetches .ret ∨ ∃ nnn, s.fetches (.call nnn))
    ∧ ((∃ row col, t.fb.pixel row col ≠ s.fb.pixel row col) → s.fetches .cls ∨ ∃ x y n, s.fetches (.drw x y n))
    ∧ (t.i ≠ s.i → (∃ nnn, s.fetches (.ldI nnn)) ∨ (∃ x, s.fetches (.addI x)) ∨ ∃ x, s.fetches (.ldF x))
    ∧ ((∃ a, t.ram.read a ≠ s.ram.read a) → (∃ x, s.fetches (.ldB x)) ∨ ∃ x, s.fetches (.storeRegs x))
    ∧ t.key = s.afterTurn.key

/-- The invariant holds at reset (R28; the zeros are D4). -/
def Obligations.InvariantHoldsAtReset : Prop := State.reset.Inv

/-- Every step keeps the invariant, from every state that has it (R28, which the spec derives): `SP <= 16`, `KEY <= 0x0F`,
`PC <= 0x10FE`, every stack entry a pushed address, `FAULT` a code of R111, memory canonical. -/
def Obligations.EveryStepKeepsTheInvariant : Prop :=
  ∀ s t : State, s.Inv → step s = .next t → t.Inv

/-- In a state with the invariant a step always answers a next state: the model never stops there (R60; a fault of the
machine is a next state, log entry 5). -/
def Obligations.EveryStepCompletes : Prop := ∀ s : State, s.Inv → ∃ t, step s = .next t

/-- Every run completes and keeps the invariant, from every boot, under every host (R5, R28): any font and ROM or failed
load, any schedule of key writes and ticks, any injected bytes. -/
def Obligations.EveryRunCompletesInTheInvariant : Prop :=
  ∀ (font : FontSource) (src : RomSource) (turns : List HostTurn) (rnd : List Byte) (k : Nat),
    ∃ t, Sys2Proof.core.run k (bootWith font src turns rnd) = .next t ∧ t.Inv

/-- Stack entries at or above `SP` are never read (R15, which the spec derives): two states that differ only there step
alike, and differ only there afterwards. -/
def Obligations.DeadStackEntriesAreUnobservable : Prop :=
  ∀ (s t : State) (stack : Vector Word 16), s.sp.toNat ≤ 16 →
    (∀ k : Fin 16, k.val < s.sp.toNat → stack[k] = s.stack[k]) → step s = .next t →
    ∃ stack' : Vector Word 16, step { s with stack := stack } = .next { t with stack := stack' }
      ∧ ∀ k : Fin 16, k.val < t.sp.toNat → stack'[k] = t.stack[k]

/-- No instruction reads the sound timer (R17): two states that differ only in `ST` step alike, and differ only in `ST`
afterwards. -/
def Obligations.SoundTimerIsUnobservable : Prop :=
  ∀ (s t : State) (b : Byte), step s = .next t → ∃ b' : Byte, step { s with st := b } = .next { t with st := b' }

/-- At a jump to itself every step leaves everything but the timers running down and what the host writes, and the state
is again at the jump (R69; that this is called final is decision D22). -/
def Obligations.SelfJumpIsStable : Prop :=
  ∀ s : State, s.atSelfJump → StepsTo s fun t =>
    t.atSelfJump ∧ t.dt.toNat ≤ s.dt.toNat ∧ t.st.toNat ≤ s.st.toNat ∧ SameBut [.dt, .st, .key, .turns] s t
end

