-- ==== Sys2Proof/Laws/Memory.lean ====
section
/-! SUPPORT. The laws of memory: read after write, every write keeps the canonical form, and a canonical memory is
determined by what it reads as (spec/20_memory.md R37, R40). -/

namespace Sys2Proof.Machine

/-- A canonical memory from `lo` on reads as the reset contents below `lo`. -/
theorem read_below_of_wfFrom {m : Memory} {lo a : Nat} (h : m.wfFrom lo = true) (ha : a < lo) :
    m.read a = Config.resetByte a := by
  induction m generalizing lo with
  | nil => rfl
  | cons kb m ih =>
    obtain ⟨k, b⟩ := kb
    simp only [Memory.wfFrom, Bool.and_eq_true, decide_eq_true_eq] at h
    have hk : k ≠ a := by omega
    simp only [Memory.read, hk, if_false]
    exact ih h.2 (by omega)

/-- A canonical memory lists no address outside `ram`. -/
theorem read_outside_of_wfFrom {m : Memory} {lo a : Nat} (h : m.wfFrom lo = true) (ha : 4096 ≤ a) :
    m.read a = Config.resetByte a := by
  induction m generalizing lo with
  | nil => rfl
  | cons kb m ih =>
    obtain ⟨k, b⟩ := kb
    simp only [Memory.wfFrom, Bool.and_eq_true, decide_eq_true_eq] at h
    have hk : k ≠ a := by simp only [Config.ramSize] at h; omega
    simp only [Memory.read, hk, if_false]
    exact ih h.2

theorem wfFrom_mono {m : Memory} {lo lo' : Nat} (h : m.wfFrom lo = true) (hl : lo' ≤ lo) : m.wfFrom lo' = true := by
  cases m with
  | nil => rfl
  | cons kb m =>
    obtain ⟨k, b⟩ := kb
    simp only [Memory.wfFrom, Bool.and_eq_true, decide_eq_true_eq] at h ⊢
    exact ⟨⟨⟨by omega, h.1.1.2⟩, h.1.2⟩, h.2⟩

/-- A write to another address changes nothing; no canonical form is needed. -/
theorem read_write_other (m : Memory) {a c : Nat} (b : Byte) (h : c ≠ a) : (m.write a b).read c = m.read c := by
  induction m with
  | nil =>
    unfold Memory.write
    split
    · rfl
    · simp [Memory.read, Ne.symm h]
  | cons kb m ih =>
    obtain ⟨k, b'⟩ := kb
    unfold Memory.write
    split
    · split
      · rfl
      · simp [Memory.read, Ne.symm h]
    · split
      · next hk =>
        have : k ≠ c := by omega
        split <;> simp [Memory.read, this, Ne.symm h]
      · simp [Memory.read, ih]

/-- A write to an address is read back (R37). -/
theorem read_write_same {m : Memory} {lo a : Nat} (b : Byte) (hm : m.wfFrom lo = true) : (m.write a b).read a = b := by
  induction m generalizing lo with
  | nil =>
    unfold Memory.write
    split
    · next h => simp [Memory.read, h]
    · simp [Memory.read]
  | cons kb m ih =>
    obtain ⟨k, b'⟩ := kb
    have hw := hm
    simp only [Memory.wfFrom, Bool.and_eq_true, decide_eq_true_eq] at hm
    unfold Memory.write
    split
    · next hlt =>
      split
      · next h =>
        have := read_below_of_wfFrom (lo := k) (m := (k, b') :: m) (a := a)
          (by simp only [Memory.wfFrom, Bool.and_eq_true, decide_eq_true_eq]; exact ⟨⟨⟨by omega, hm.1.1.2⟩, hm.1.2⟩, hm.2⟩) hlt
        rw [this, h]
      · simp [Memory.read]
    · split
      · next hk =>
        split
        · next h => rw [read_below_of_wfFrom hm.2 (by omega), h]
        · simp [Memory.read]
      · next hk =>
        have : k ≠ a := fun e => hk e.symm
        simp only [Memory.read, this, if_false]
        exact ih hm.2

/-- A write inside `ram` keeps the canonical form. -/
theorem wfFrom_write {m : Memory} {lo a : Nat} (b : Byte) (hm : m.wfFrom lo = true) (hlo : lo ≤ a) (ha : a < 4096) :
    (m.write a b).wfFrom lo = true := by
  induction m generalizing lo with
  | nil =>
    unfold Memory.write
    split
    · rfl
    · next h => simp [Memory.wfFrom, Config.ramSize, h, hlo, ha]
  | cons kb m ih =>
    obtain ⟨k, b'⟩ := kb
    have hw := hm
    simp only [Memory.wfFrom, Bool.and_eq_true, decide_eq_true_eq] at hm
    unfold Memory.write
    split
    · next hlt =>
      split
      · exact hw
      · next h =>
        simp only [Memory.wfFrom, Bool.and_eq_true, decide_eq_true_eq, bne_iff_ne, ne_eq]
        exact ⟨⟨⟨hlo, ha⟩, h⟩, ⟨⟨by omega, hm.1.1.2⟩, by simpa using hm.1.2⟩, hm.2⟩
    · split
      · next hk =>
        split
        · exact wfFrom_mono hm.2 (by omega)
        · next h =>
          simp only [Memory.wfFrom, Bool.and_eq_true, decide_eq_true_eq, bne_iff_ne, ne_eq]
          exact ⟨⟨⟨hlo, ha⟩, h⟩, by rw [hk]; exact hm.2⟩
      · next hk =>
        simp only [Memory.wfFrom, Bool.and_eq_true, decide_eq_true_eq]
        exact ⟨hm.1, ih hm.2 (by omega)⟩

theorem write_wf {m : Memory} {a : Nat} (b : Byte) (hm : m.wf = true) (ha : a < 4096) : (m.write a b).wf = true :=
  wfFrom_write b hm (Nat.zero_le a) ha

/-- Consecutive bytes inside `ram` keep the canonical form. -/
theorem writeAll_wf {bs : List Byte} {m : Memory} {base : Nat} (hm : m.wf = true) (h : base + bs.length ≤ 4096) :
    (m.writeAll base bs).wf = true := by
  induction bs generalizing m base with
  | nil => exact hm
  | cons b bs ih =>
    simp only [List.length_cons] at h
    exact ih (write_wf b hm (by omega)) (by omega)

/-- Outside the stored bytes nothing changes. -/
theorem read_writeAll_outside {bs : List Byte} {m : Memory} {base a : Nat} (h : a < base ∨ base + bs.length ≤ a) :
    (m.writeAll base bs).read a = m.read a := by
  induction bs generalizing m base with
  | nil => rfl
  | cons b bs ih =>
    simp only [List.length_cons] at h
    rw [Memory.writeAll, ih (by omega), read_write_other m b (by omega)]

/-- Each stored byte is read back. -/
theorem read_writeAll_inside {bs : List Byte} {m : Memory} {base k : Nat} (hm : m.wf = true)
    (hr : base + bs.length ≤ 4096) (hk : k < bs.length) : (m.writeAll base bs).read (base + k) = bs[k] := by
  induction bs generalizing m base k with
  | nil => simp at hk
  | cons b bs ih =>
    simp only [List.length_cons] at hr hk
    cases k with
    | zero =>
      rw [Memory.writeAll, read_writeAll_outside (by omega)]
      exact read_write_same b hm
    | succ k =>
      have := ih (m := m.write base b) (base := base + 1) (k := k) (write_wf b hm (by omega)) (by omega) (by omega)
      rw [Memory.writeAll, show base + (k + 1) = base + 1 + k by omega, this]
      simp

@[simp] theorem readRange_length (m : Memory) (base n : Nat) : (m.readRange base n).length = n := by
  simp [Memory.readRange]

@[simp] theorem readRange_getElem (m : Memory) (base n k : Nat) (h : k < (m.readRange base n).length) :
    (m.readRange base n)[k] = m.read (base + k) := by
  simp [Memory.readRange]

/-- `inRange` in arithmetic. -/
theorem inRange_iff (base n : Nat) : inRange base n = true ↔ n = 0 ∨ base + n ≤ 4096 := by
  simp [inRange, Config.ramSize]

/-- Memory right after reset is canonical. -/
theorem reset_ram_wf : State.reset.ram.wf = true := rfl

end Sys2Proof.Machine
end

