-- ==== Sys2Proof/Laws/State.lean ====
section
/-! SUPPORT. One lemma per field per update of State, and what reading a register gives after each update. -/

namespace Sys2Proof.Machine


/-! ### setReg -/

@[simp] theorem setReg_v (s : State) (x : Reg) (b : Byte) : (s.setReg x b).v = s.v.set x b := rfl
@[simp] theorem setReg_i (s : State) (x : Reg) (b : Byte) : (s.setReg x b).i = s.i := rfl
@[simp] theorem setReg_pc (s : State) (x : Reg) (b : Byte) : (s.setReg x b).pc = s.pc := rfl
@[simp] theorem setReg_sp (s : State) (x : Reg) (b : Byte) : (s.setReg x b).sp = s.sp := rfl
@[simp] theorem setReg_stack (s : State) (x : Reg) (b : Byte) : (s.setReg x b).stack = s.stack := rfl
@[simp] theorem setReg_dt (s : State) (x : Reg) (b : Byte) : (s.setReg x b).dt = s.dt := rfl
@[simp] theorem setReg_st (s : State) (x : Reg) (b : Byte) : (s.setReg x b).st = s.st := rfl
@[simp] theorem setReg_ram (s : State) (x : Reg) (b : Byte) : (s.setReg x b).ram = s.ram := rfl
@[simp] theorem setReg_fb (s : State) (x : Reg) (b : Byte) : (s.setReg x b).fb = s.fb := rfl
@[simp] theorem setReg_key (s : State) (x : Reg) (b : Byte) : (s.setReg x b).key = s.key := rfl
@[simp] theorem setReg_fault (s : State) (x : Reg) (b : Byte) : (s.setReg x b).fault = s.fault := rfl
@[simp] theorem setReg_faultInfo (s : State) (x : Reg) (b : Byte) : (s.setReg x b).faultInfo = s.faultInfo := rfl
@[simp] theorem setReg_turns (s : State) (x : Reg) (b : Byte) : (s.setReg x b).turns = s.turns := rfl
@[simp] theorem setReg_rndIn (s : State) (x : Reg) (b : Byte) : (s.setReg x b).rndIn = s.rndIn := rfl
@[simp] theorem setReg_draws (s : State) (x : Reg) (b : Byte) : (s.setReg x b).draws = s.draws := rfl

/-! ### setRegs -/

@[simp] theorem setRegs_v (s : State) (v : Vector Byte 16) : (s.setRegs v).v = v := rfl
@[simp] theorem setRegs_i (s : State) (v : Vector Byte 16) : (s.setRegs v).i = s.i := rfl
@[simp] theorem setRegs_pc (s : State) (v : Vector Byte 16) : (s.setRegs v).pc = s.pc := rfl
@[simp] theorem setRegs_sp (s : State) (v : Vector Byte 16) : (s.setRegs v).sp = s.sp := rfl
@[simp] theorem setRegs_stack (s : State) (v : Vector Byte 16) : (s.setRegs v).stack = s.stack := rfl
@[simp] theorem setRegs_dt (s : State) (v : Vector Byte 16) : (s.setRegs v).dt = s.dt := rfl
@[simp] theorem setRegs_st (s : State) (v : Vector Byte 16) : (s.setRegs v).st = s.st := rfl
@[simp] theorem setRegs_ram (s : State) (v : Vector Byte 16) : (s.setRegs v).ram = s.ram := rfl
@[simp] theorem setRegs_fb (s : State) (v : Vector Byte 16) : (s.setRegs v).fb = s.fb := rfl
@[simp] theorem setRegs_key (s : State) (v : Vector Byte 16) : (s.setRegs v).key = s.key := rfl
@[simp] theorem setRegs_fault (s : State) (v : Vector Byte 16) : (s.setRegs v).fault = s.fault := rfl
@[simp] theorem setRegs_faultInfo (s : State) (v : Vector Byte 16) : (s.setRegs v).faultInfo = s.faultInfo := rfl
@[simp] theorem setRegs_turns (s : State) (v : Vector Byte 16) : (s.setRegs v).turns = s.turns := rfl
@[simp] theorem setRegs_rndIn (s : State) (v : Vector Byte 16) : (s.setRegs v).rndIn = s.rndIn := rfl
@[simp] theorem setRegs_draws (s : State) (v : Vector Byte 16) : (s.setRegs v).draws = s.draws := rfl

/-! ### setI -/

@[simp] theorem setI_v (s : State) (w : Word) : (s.setI w).v = s.v := rfl
@[simp] theorem setI_i (s : State) (w : Word) : (s.setI w).i = w := rfl
@[simp] theorem setI_pc (s : State) (w : Word) : (s.setI w).pc = s.pc := rfl
@[simp] theorem setI_sp (s : State) (w : Word) : (s.setI w).sp = s.sp := rfl
@[simp] theorem setI_stack (s : State) (w : Word) : (s.setI w).stack = s.stack := rfl
@[simp] theorem setI_dt (s : State) (w : Word) : (s.setI w).dt = s.dt := rfl
@[simp] theorem setI_st (s : State) (w : Word) : (s.setI w).st = s.st := rfl
@[simp] theorem setI_ram (s : State) (w : Word) : (s.setI w).ram = s.ram := rfl
@[simp] theorem setI_fb (s : State) (w : Word) : (s.setI w).fb = s.fb := rfl
@[simp] theorem setI_key (s : State) (w : Word) : (s.setI w).key = s.key := rfl
@[simp] theorem setI_fault (s : State) (w : Word) : (s.setI w).fault = s.fault := rfl
@[simp] theorem setI_faultInfo (s : State) (w : Word) : (s.setI w).faultInfo = s.faultInfo := rfl
@[simp] theorem setI_turns (s : State) (w : Word) : (s.setI w).turns = s.turns := rfl
@[simp] theorem setI_rndIn (s : State) (w : Word) : (s.setI w).rndIn = s.rndIn := rfl
@[simp] theorem setI_draws (s : State) (w : Word) : (s.setI w).draws = s.draws := rfl
@[simp] theorem setI_reg (s : State) (w : Word) (r : Reg) : (s.setI w).reg r = s.reg r := rfl

/-! ### setPc -/

@[simp] theorem setPc_v (s : State) (w : Word) : (s.setPc w).v = s.v := rfl
@[simp] theorem setPc_i (s : State) (w : Word) : (s.setPc w).i = s.i := rfl
@[simp] theorem setPc_pc (s : State) (w : Word) : (s.setPc w).pc = w := rfl
@[simp] theorem setPc_sp (s : State) (w : Word) : (s.setPc w).sp = s.sp := rfl
@[simp] theorem setPc_stack (s : State) (w : Word) : (s.setPc w).stack = s.stack := rfl
@[simp] theorem setPc_dt (s : State) (w : Word) : (s.setPc w).dt = s.dt := rfl
@[simp] theorem setPc_st (s : State) (w : Word) : (s.setPc w).st = s.st := rfl
@[simp] theorem setPc_ram (s : State) (w : Word) : (s.setPc w).ram = s.ram := rfl
@[simp] theorem setPc_fb (s : State) (w : Word) : (s.setPc w).fb = s.fb := rfl
@[simp] theorem setPc_key (s : State) (w : Word) : (s.setPc w).key = s.key := rfl
@[simp] theorem setPc_fault (s : State) (w : Word) : (s.setPc w).fault = s.fault := rfl
@[simp] theorem setPc_faultInfo (s : State) (w : Word) : (s.setPc w).faultInfo = s.faultInfo := rfl
@[simp] theorem setPc_turns (s : State) (w : Word) : (s.setPc w).turns = s.turns := rfl
@[simp] theorem setPc_rndIn (s : State) (w : Word) : (s.setPc w).rndIn = s.rndIn := rfl
@[simp] theorem setPc_draws (s : State) (w : Word) : (s.setPc w).draws = s.draws := rfl
@[simp] theorem setPc_reg (s : State) (w : Word) (r : Reg) : (s.setPc w).reg r = s.reg r := rfl

/-! ### advance -/

@[simp] theorem advance_v (s : State) : (s.advance).v = s.v := rfl
@[simp] theorem advance_i (s : State) : (s.advance).i = s.i := rfl
@[simp] theorem advance_pc (s : State) : (s.advance).pc = s.pc + 2 := rfl
@[simp] theorem advance_sp (s : State) : (s.advance).sp = s.sp := rfl
@[simp] theorem advance_stack (s : State) : (s.advance).stack = s.stack := rfl
@[simp] theorem advance_dt (s : State) : (s.advance).dt = s.dt := rfl
@[simp] theorem advance_st (s : State) : (s.advance).st = s.st := rfl
@[simp] theorem advance_ram (s : State) : (s.advance).ram = s.ram := rfl
@[simp] theorem advance_fb (s : State) : (s.advance).fb = s.fb := rfl
@[simp] theorem advance_key (s : State) : (s.advance).key = s.key := rfl
@[simp] theorem advance_fault (s : State) : (s.advance).fault = s.fault := rfl
@[simp] theorem advance_faultInfo (s : State) : (s.advance).faultInfo = s.faultInfo := rfl
@[simp] theorem advance_turns (s : State) : (s.advance).turns = s.turns := rfl
@[simp] theorem advance_rndIn (s : State) : (s.advance).rndIn = s.rndIn := rfl
@[simp] theorem advance_draws (s : State) : (s.advance).draws = s.draws := rfl
@[simp] theorem advance_reg (s : State) (r : Reg) : (s.advance).reg r = s.reg r := rfl

/-! ### skipIf -/

@[simp] theorem skipIf_v (s : State) (c : Bool) : (s.skipIf c).v = s.v := rfl
@[simp] theorem skipIf_i (s : State) (c : Bool) : (s.skipIf c).i = s.i := rfl
@[simp] theorem skipIf_pc (s : State) (c : Bool) : (s.skipIf c).pc = if c then s.pc + 4 else s.pc + 2 := rfl
@[simp] theorem skipIf_sp (s : State) (c : Bool) : (s.skipIf c).sp = s.sp := rfl
@[simp] theorem skipIf_stack (s : State) (c : Bool) : (s.skipIf c).stack = s.stack := rfl
@[simp] theorem skipIf_dt (s : State) (c : Bool) : (s.skipIf c).dt = s.dt := rfl
@[simp] theorem skipIf_st (s : State) (c : Bool) : (s.skipIf c).st = s.st := rfl
@[simp] theorem skipIf_ram (s : State) (c : Bool) : (s.skipIf c).ram = s.ram := rfl
@[simp] theorem skipIf_fb (s : State) (c : Bool) : (s.skipIf c).fb = s.fb := rfl
@[simp] theorem skipIf_key (s : State) (c : Bool) : (s.skipIf c).key = s.key := rfl
@[simp] theorem skipIf_fault (s : State) (c : Bool) : (s.skipIf c).fault = s.fault := rfl
@[simp] theorem skipIf_faultInfo (s : State) (c : Bool) : (s.skipIf c).faultInfo = s.faultInfo := rfl
@[simp] theorem skipIf_turns (s : State) (c : Bool) : (s.skipIf c).turns = s.turns := rfl
@[simp] theorem skipIf_rndIn (s : State) (c : Bool) : (s.skipIf c).rndIn = s.rndIn := rfl
@[simp] theorem skipIf_draws (s : State) (c : Bool) : (s.skipIf c).draws = s.draws := rfl
@[simp] theorem skipIf_reg (s : State) (c : Bool) (r : Reg) : (s.skipIf c).reg r = s.reg r := rfl

/-! ### setDt -/

@[simp] theorem setDt_v (s : State) (b : Byte) : (s.setDt b).v = s.v := rfl
@[simp] theorem setDt_i (s : State) (b : Byte) : (s.setDt b).i = s.i := rfl
@[simp] theorem setDt_pc (s : State) (b : Byte) : (s.setDt b).pc = s.pc := rfl
@[simp] theorem setDt_sp (s : State) (b : Byte) : (s.setDt b).sp = s.sp := rfl
@[simp] theorem setDt_stack (s : State) (b : Byte) : (s.setDt b).stack = s.stack := rfl
@[simp] theorem setDt_dt (s : State) (b : Byte) : (s.setDt b).dt = b := rfl
@[simp] theorem setDt_st (s : State) (b : Byte) : (s.setDt b).st = s.st := rfl
@[simp] theorem setDt_ram (s : State) (b : Byte) : (s.setDt b).ram = s.ram := rfl
@[simp] theorem setDt_fb (s : State) (b : Byte) : (s.setDt b).fb = s.fb := rfl
@[simp] theorem setDt_key (s : State) (b : Byte) : (s.setDt b).key = s.key := rfl
@[simp] theorem setDt_fault (s : State) (b : Byte) : (s.setDt b).fault = s.fault := rfl
@[simp] theorem setDt_faultInfo (s : State) (b : Byte) : (s.setDt b).faultInfo = s.faultInfo := rfl
@[simp] theorem setDt_turns (s : State) (b : Byte) : (s.setDt b).turns = s.turns := rfl
@[simp] theorem setDt_rndIn (s : State) (b : Byte) : (s.setDt b).rndIn = s.rndIn := rfl
@[simp] theorem setDt_draws (s : State) (b : Byte) : (s.setDt b).draws = s.draws := rfl
@[simp] theorem setDt_reg (s : State) (b : Byte) (r : Reg) : (s.setDt b).reg r = s.reg r := rfl

/-! ### setSt -/

@[simp] theorem setSt_v (s : State) (b : Byte) : (s.setSt b).v = s.v := rfl
@[simp] theorem setSt_i (s : State) (b : Byte) : (s.setSt b).i = s.i := rfl
@[simp] theorem setSt_pc (s : State) (b : Byte) : (s.setSt b).pc = s.pc := rfl
@[simp] theorem setSt_sp (s : State) (b : Byte) : (s.setSt b).sp = s.sp := rfl
@[simp] theorem setSt_stack (s : State) (b : Byte) : (s.setSt b).stack = s.stack := rfl
@[simp] theorem setSt_dt (s : State) (b : Byte) : (s.setSt b).dt = s.dt := rfl
@[simp] theorem setSt_st (s : State) (b : Byte) : (s.setSt b).st = b := rfl
@[simp] theorem setSt_ram (s : State) (b : Byte) : (s.setSt b).ram = s.ram := rfl
@[simp] theorem setSt_fb (s : State) (b : Byte) : (s.setSt b).fb = s.fb := rfl
@[simp] theorem setSt_key (s : State) (b : Byte) : (s.setSt b).key = s.key := rfl
@[simp] theorem setSt_fault (s : State) (b : Byte) : (s.setSt b).fault = s.fault := rfl
@[simp] theorem setSt_faultInfo (s : State) (b : Byte) : (s.setSt b).faultInfo = s.faultInfo := rfl
@[simp] theorem setSt_turns (s : State) (b : Byte) : (s.setSt b).turns = s.turns := rfl
@[simp] theorem setSt_rndIn (s : State) (b : Byte) : (s.setSt b).rndIn = s.rndIn := rfl
@[simp] theorem setSt_draws (s : State) (b : Byte) : (s.setSt b).draws = s.draws := rfl
@[simp] theorem setSt_reg (s : State) (b : Byte) (r : Reg) : (s.setSt b).reg r = s.reg r := rfl

/-! ### setRam -/

@[simp] theorem setRam_v (s : State) (m : Memory) : (s.setRam m).v = s.v := rfl
@[simp] theorem setRam_i (s : State) (m : Memory) : (s.setRam m).i = s.i := rfl
@[simp] theorem setRam_pc (s : State) (m : Memory) : (s.setRam m).pc = s.pc := rfl
@[simp] theorem setRam_sp (s : State) (m : Memory) : (s.setRam m).sp = s.sp := rfl
@[simp] theorem setRam_stack (s : State) (m : Memory) : (s.setRam m).stack = s.stack := rfl
@[simp] theorem setRam_dt (s : State) (m : Memory) : (s.setRam m).dt = s.dt := rfl
@[simp] theorem setRam_st (s : State) (m : Memory) : (s.setRam m).st = s.st := rfl
@[simp] theorem setRam_ram (s : State) (m : Memory) : (s.setRam m).ram = m := rfl
@[simp] theorem setRam_fb (s : State) (m : Memory) : (s.setRam m).fb = s.fb := rfl
@[simp] theorem setRam_key (s : State) (m : Memory) : (s.setRam m).key = s.key := rfl
@[simp] theorem setRam_fault (s : State) (m : Memory) : (s.setRam m).fault = s.fault := rfl
@[simp] theorem setRam_faultInfo (s : State) (m : Memory) : (s.setRam m).faultInfo = s.faultInfo := rfl
@[simp] theorem setRam_turns (s : State) (m : Memory) : (s.setRam m).turns = s.turns := rfl
@[simp] theorem setRam_rndIn (s : State) (m : Memory) : (s.setRam m).rndIn = s.rndIn := rfl
@[simp] theorem setRam_draws (s : State) (m : Memory) : (s.setRam m).draws = s.draws := rfl
@[simp] theorem setRam_reg (s : State) (m : Memory) (r : Reg) : (s.setRam m).reg r = s.reg r := rfl

/-! ### setFb -/

@[simp] theorem setFb_v (s : State) (fb : Framebuffer) : (s.setFb fb).v = s.v := rfl
@[simp] theorem setFb_i (s : State) (fb : Framebuffer) : (s.setFb fb).i = s.i := rfl
@[simp] theorem setFb_pc (s : State) (fb : Framebuffer) : (s.setFb fb).pc = s.pc := rfl
@[simp] theorem setFb_sp (s : State) (fb : Framebuffer) : (s.setFb fb).sp = s.sp := rfl
@[simp] theorem setFb_stack (s : State) (fb : Framebuffer) : (s.setFb fb).stack = s.stack := rfl
@[simp] theorem setFb_dt (s : State) (fb : Framebuffer) : (s.setFb fb).dt = s.dt := rfl
@[simp] theorem setFb_st (s : State) (fb : Framebuffer) : (s.setFb fb).st = s.st := rfl
@[simp] theorem setFb_ram (s : State) (fb : Framebuffer) : (s.setFb fb).ram = s.ram := rfl
@[simp] theorem setFb_fb (s : State) (fb : Framebuffer) : (s.setFb fb).fb = fb := rfl
@[simp] theorem setFb_key (s : State) (fb : Framebuffer) : (s.setFb fb).key = s.key := rfl
@[simp] theorem setFb_fault (s : State) (fb : Framebuffer) : (s.setFb fb).fault = s.fault := rfl
@[simp] theorem setFb_faultInfo (s : State) (fb : Framebuffer) : (s.setFb fb).faultInfo = s.faultInfo := rfl
@[simp] theorem setFb_turns (s : State) (fb : Framebuffer) : (s.setFb fb).turns = s.turns := rfl
@[simp] theorem setFb_rndIn (s : State) (fb : Framebuffer) : (s.setFb fb).rndIn = s.rndIn := rfl
@[simp] theorem setFb_draws (s : State) (fb : Framebuffer) : (s.setFb fb).draws = s.draws := rfl
@[simp] theorem setFb_reg (s : State) (fb : Framebuffer) (r : Reg) : (s.setFb fb).reg r = s.reg r := rfl

/-! ### setKey -/

@[simp] theorem setKey_v (s : State) (c : BitVec 4) : (s.setKey c).v = s.v := rfl
@[simp] theorem setKey_i (s : State) (c : BitVec 4) : (s.setKey c).i = s.i := rfl
@[simp] theorem setKey_pc (s : State) (c : BitVec 4) : (s.setKey c).pc = s.pc := rfl
@[simp] theorem setKey_sp (s : State) (c : BitVec 4) : (s.setKey c).sp = s.sp := rfl
@[simp] theorem setKey_stack (s : State) (c : BitVec 4) : (s.setKey c).stack = s.stack := rfl
@[simp] theorem setKey_dt (s : State) (c : BitVec 4) : (s.setKey c).dt = s.dt := rfl
@[simp] theorem setKey_st (s : State) (c : BitVec 4) : (s.setKey c).st = s.st := rfl
@[simp] theorem setKey_ram (s : State) (c : BitVec 4) : (s.setKey c).ram = s.ram := rfl
@[simp] theorem setKey_fb (s : State) (c : BitVec 4) : (s.setKey c).fb = s.fb := rfl
@[simp] theorem setKey_key (s : State) (c : BitVec 4) : (s.setKey c).key = c.setWidth 8 := rfl
@[simp] theorem setKey_fault (s : State) (c : BitVec 4) : (s.setKey c).fault = s.fault := rfl
@[simp] theorem setKey_faultInfo (s : State) (c : BitVec 4) : (s.setKey c).faultInfo = s.faultInfo := rfl
@[simp] theorem setKey_turns (s : State) (c : BitVec 4) : (s.setKey c).turns = s.turns := rfl
@[simp] theorem setKey_rndIn (s : State) (c : BitVec 4) : (s.setKey c).rndIn = s.rndIn := rfl
@[simp] theorem setKey_draws (s : State) (c : BitVec 4) : (s.setKey c).draws = s.draws := rfl
@[simp] theorem setKey_reg (s : State) (c : BitVec 4) (r : Reg) : (s.setKey c).reg r = s.reg r := rfl

/-! ### push -/

@[simp] theorem push_v (s : State) (w : Word) (h : s.sp.toNat < 16) : (s.push w h).v = s.v := rfl
@[simp] theorem push_i (s : State) (w : Word) (h : s.sp.toNat < 16) : (s.push w h).i = s.i := rfl
@[simp] theorem push_pc (s : State) (w : Word) (h : s.sp.toNat < 16) : (s.push w h).pc = s.pc := rfl
@[simp] theorem push_sp (s : State) (w : Word) (h : s.sp.toNat < 16) : (s.push w h).sp = s.sp + 1 := rfl
@[simp] theorem push_stack (s : State) (w : Word) (h : s.sp.toNat < 16) : (s.push w h).stack = s.stack.set s.sp.toNat w := rfl
@[simp] theorem push_dt (s : State) (w : Word) (h : s.sp.toNat < 16) : (s.push w h).dt = s.dt := rfl
@[simp] theorem push_st (s : State) (w : Word) (h : s.sp.toNat < 16) : (s.push w h).st = s.st := rfl
@[simp] theorem push_ram (s : State) (w : Word) (h : s.sp.toNat < 16) : (s.push w h).ram = s.ram := rfl
@[simp] theorem push_fb (s : State) (w : Word) (h : s.sp.toNat < 16) : (s.push w h).fb = s.fb := rfl
@[simp] theorem push_key (s : State) (w : Word) (h : s.sp.toNat < 16) : (s.push w h).key = s.key := rfl
@[simp] theorem push_fault (s : State) (w : Word) (h : s.sp.toNat < 16) : (s.push w h).fault = s.fault := rfl
@[simp] theorem push_faultInfo (s : State) (w : Word) (h : s.sp.toNat < 16) : (s.push w h).faultInfo = s.faultInfo := rfl
@[simp] theorem push_turns (s : State) (w : Word) (h : s.sp.toNat < 16) : (s.push w h).turns = s.turns := rfl
@[simp] theorem push_rndIn (s : State) (w : Word) (h : s.sp.toNat < 16) : (s.push w h).rndIn = s.rndIn := rfl
@[simp] theorem push_draws (s : State) (w : Word) (h : s.sp.toNat < 16) : (s.push w h).draws = s.draws := rfl
@[simp] theorem push_reg (s : State) (w : Word) (h : s.sp.toNat < 16) (r : Reg) : (s.push w h).reg r = s.reg r := rfl

/-! ### drop -/

@[simp] theorem drop_v (s : State) : (s.drop).v = s.v := rfl
@[simp] theorem drop_i (s : State) : (s.drop).i = s.i := rfl
@[simp] theorem drop_pc (s : State) : (s.drop).pc = s.pc := rfl
@[simp] theorem drop_sp (s : State) : (s.drop).sp = s.sp - 1 := rfl
@[simp] theorem drop_stack (s : State) : (s.drop).stack = s.stack := rfl
@[simp] theorem drop_dt (s : State) : (s.drop).dt = s.dt := rfl
@[simp] theorem drop_st (s : State) : (s.drop).st = s.st := rfl
@[simp] theorem drop_ram (s : State) : (s.drop).ram = s.ram := rfl
@[simp] theorem drop_fb (s : State) : (s.drop).fb = s.fb := rfl
@[simp] theorem drop_key (s : State) : (s.drop).key = s.key := rfl
@[simp] theorem drop_fault (s : State) : (s.drop).fault = s.fault := rfl
@[simp] theorem drop_faultInfo (s : State) : (s.drop).faultInfo = s.faultInfo := rfl
@[simp] theorem drop_turns (s : State) : (s.drop).turns = s.turns := rfl
@[simp] theorem drop_rndIn (s : State) : (s.drop).rndIn = s.rndIn := rfl
@[simp] theorem drop_draws (s : State) : (s.drop).draws = s.draws := rfl
@[simp] theorem drop_reg (s : State) (r : Reg) : (s.drop).reg r = s.reg r := rfl

/-! ### consumeRnd -/

@[simp] theorem consumeRnd_v (s : State) : (s.consumeRnd).v = s.v := rfl
@[simp] theorem consumeRnd_i (s : State) : (s.consumeRnd).i = s.i := rfl
@[simp] theorem consumeRnd_pc (s : State) : (s.consumeRnd).pc = s.pc := rfl
@[simp] theorem consumeRnd_sp (s : State) : (s.consumeRnd).sp = s.sp := rfl
@[simp] theorem consumeRnd_stack (s : State) : (s.consumeRnd).stack = s.stack := rfl
@[simp] theorem consumeRnd_dt (s : State) : (s.consumeRnd).dt = s.dt := rfl
@[simp] theorem consumeRnd_st (s : State) : (s.consumeRnd).st = s.st := rfl
@[simp] theorem consumeRnd_ram (s : State) : (s.consumeRnd).ram = s.ram := rfl
@[simp] theorem consumeRnd_fb (s : State) : (s.consumeRnd).fb = s.fb := rfl
@[simp] theorem consumeRnd_key (s : State) : (s.consumeRnd).key = s.key := rfl
@[simp] theorem consumeRnd_fault (s : State) : (s.consumeRnd).fault = s.fault := rfl
@[simp] theorem consumeRnd_faultInfo (s : State) : (s.consumeRnd).faultInfo = s.faultInfo := rfl
@[simp] theorem consumeRnd_turns (s : State) : (s.consumeRnd).turns = s.turns := rfl
@[simp] theorem consumeRnd_rndIn (s : State) : (s.consumeRnd).rndIn = s.rndIn.tail := rfl
@[simp] theorem consumeRnd_draws (s : State) : (s.consumeRnd).draws = s.draws + 1 := rfl
@[simp] theorem consumeRnd_reg (s : State) (r : Reg) : (s.consumeRnd).reg r = s.reg r := rfl

/-! ### raise -/

@[simp] theorem raise_v (s : State) (c : FaultCause) : (raise c s).v = s.v := rfl
@[simp] theorem raise_i (s : State) (c : FaultCause) : (raise c s).i = s.i := rfl
@[simp] theorem raise_pc (s : State) (c : FaultCause) : (raise c s).pc = s.pc := rfl
@[simp] theorem raise_sp (s : State) (c : FaultCause) : (raise c s).sp = s.sp := rfl
@[simp] theorem raise_stack (s : State) (c : FaultCause) : (raise c s).stack = s.stack := rfl
@[simp] theorem raise_dt (s : State) (c : FaultCause) : (raise c s).dt = s.dt := rfl
@[simp] theorem raise_st (s : State) (c : FaultCause) : (raise c s).st = s.st := rfl
@[simp] theorem raise_ram (s : State) (c : FaultCause) : (raise c s).ram = s.ram := rfl
@[simp] theorem raise_fb (s : State) (c : FaultCause) : (raise c s).fb = s.fb := rfl
@[simp] theorem raise_key (s : State) (c : FaultCause) : (raise c s).key = s.key := rfl
@[simp] theorem raise_fault (s : State) (c : FaultCause) : (raise c s).fault = c.code := rfl
@[simp] theorem raise_faultInfo (s : State) (c : FaultCause) : (raise c s).faultInfo = c.info := rfl
@[simp] theorem raise_turns (s : State) (c : FaultCause) : (raise c s).turns = s.turns := rfl
@[simp] theorem raise_rndIn (s : State) (c : FaultCause) : (raise c s).rndIn = s.rndIn := rfl
@[simp] theorem raise_draws (s : State) (c : FaultCause) : (raise c s).draws = s.draws := rfl
@[simp] theorem raise_reg (s : State) (c : FaultCause) (r : Reg) : (raise c s).reg r = s.reg r := rfl

/-! ### tick -/

@[simp] theorem tick_v (s : State) : (tick s).v = s.v := rfl
@[simp] theorem tick_i (s : State) : (tick s).i = s.i := rfl
@[simp] theorem tick_pc (s : State) : (tick s).pc = s.pc := rfl
@[simp] theorem tick_sp (s : State) : (tick s).sp = s.sp := rfl
@[simp] theorem tick_stack (s : State) : (tick s).stack = s.stack := rfl
@[simp] theorem tick_dt (s : State) : (tick s).dt = countDown s.dt := rfl
@[simp] theorem tick_st (s : State) : (tick s).st = countDown s.st := rfl
@[simp] theorem tick_ram (s : State) : (tick s).ram = s.ram := rfl
@[simp] theorem tick_fb (s : State) : (tick s).fb = s.fb := rfl
@[simp] theorem tick_key (s : State) : (tick s).key = s.key := rfl
@[simp] theorem tick_fault (s : State) : (tick s).fault = s.fault := rfl
@[simp] theorem tick_faultInfo (s : State) : (tick s).faultInfo = s.faultInfo := rfl
@[simp] theorem tick_turns (s : State) : (tick s).turns = s.turns := rfl
@[simp] theorem tick_rndIn (s : State) : (tick s).rndIn = s.rndIn := rfl
@[simp] theorem tick_draws (s : State) : (tick s).draws = s.draws := rfl
@[simp] theorem tick_reg (s : State) (r : Reg) : (tick s).reg r = s.reg r := rfl

/-! ### Registers -/

@[simp] theorem setReg_reg_same (s : State) (x : Reg) (b : Byte) : (s.setReg x b).reg x = b := by
  simp [State.reg]

theorem setReg_reg_other (s : State) (x r : Reg) (b : Byte) (h : r ≠ x) : (s.setReg x b).reg r = s.reg r := by
  have : (x : Nat) ≠ r := fun e => h (Fin.ext e.symm)
  simp [State.reg, this]

theorem setReg_reg (s : State) (x r : Reg) (b : Byte) : (s.setReg x b).reg r = if r = x then b else s.reg r := by
  split
  · next h => simp [h]
  · next h => exact setReg_reg_other s x r b h

@[simp] theorem setRegs_reg (s : State) (v : Vector Byte 16) (r : Reg) : (s.setRegs v).reg r = v[r] := rfl

/-- The result is what `V[x]` holds unless `x = 0xF`; `VF` holds the flag either way (R80). -/
theorem setResultFlag_eq (s : State) (x : Reg) (b : Byte) (f : Bool) :
    s.setResultFlag x b f = (s.setReg x b).setReg regF (flagByte f) := rfl

/-! ### The host's turn: it changes the latch and the schedule only -/

@[simp] theorem afterTurn_v (s : State) : s.afterTurn.v = s.v := by unfold State.afterTurn; split <;> rfl
@[simp] theorem afterTurn_i (s : State) : s.afterTurn.i = s.i := by unfold State.afterTurn; split <;> rfl
@[simp] theorem afterTurn_pc (s : State) : s.afterTurn.pc = s.pc := by unfold State.afterTurn; split <;> rfl
@[simp] theorem afterTurn_sp (s : State) : s.afterTurn.sp = s.sp := by unfold State.afterTurn; split <;> rfl
@[simp] theorem afterTurn_stack (s : State) : s.afterTurn.stack = s.stack := by unfold State.afterTurn; split <;> rfl
@[simp] theorem afterTurn_dt (s : State) : s.afterTurn.dt = s.dt := by unfold State.afterTurn; split <;> rfl
@[simp] theorem afterTurn_st (s : State) : s.afterTurn.st = s.st := by unfold State.afterTurn; split <;> rfl
@[simp] theorem afterTurn_ram (s : State) : s.afterTurn.ram = s.ram := by unfold State.afterTurn; split <;> rfl
@[simp] theorem afterTurn_fb (s : State) : s.afterTurn.fb = s.fb := by unfold State.afterTurn; split <;> rfl
@[simp] theorem afterTurn_fault (s : State) : s.afterTurn.fault = s.fault := by unfold State.afterTurn; split <;> rfl
@[simp] theorem afterTurn_faultInfo (s : State) : s.afterTurn.faultInfo = s.faultInfo := by unfold State.afterTurn; split <;> rfl
@[simp] theorem afterTurn_rndIn (s : State) : s.afterTurn.rndIn = s.rndIn := by unfold State.afterTurn; split <;> rfl
@[simp] theorem afterTurn_draws (s : State) : s.afterTurn.draws = s.draws := by unfold State.afterTurn; split <;> rfl

@[simp] theorem afterTurn_turns (s : State) : s.afterTurn.turns = s.turns.tail := by
  unfold State.afterTurn; split <;> rfl

theorem afterTurn_key (s : State) :
    s.afterTurn.key = match s.turn.key with
      | some code => code.setWidth 8
      | none => s.key := by
  unfold State.afterTurn; split <;> simp_all

@[simp] theorem afterTurn_reg (s : State) (r : Reg) : s.afterTurn.reg r = s.reg r := by simp [State.reg]

/-- With no key write scheduled the turn changes nothing but the schedule. -/
theorem afterTurn_of_no_key (s : State) (h : s.turn.key = none) : s.afterTurn = { s with turns := s.turns.tail } := by
  simp [State.afterTurn, h]

end Sys2Proof.Machine
end

