-- ==== Sys2Proof/Laws/Boot.lean ====
section
/-! SUPPORT. What the boot sequence can leave: memory after each of its loads, the outcomes of a ROM load, each said once
(spec/70_reset_and_hazards.md R132). -/

namespace Sys2Proof.Machine

/-- The whole font lies below `PROG_BASE` (R6): the parameter passes its check. -/
theorem fontBase_fits : Config.fontBase + 80 ≤ 0x200 := by decide

theorem resetByte_outside {a : Nat} (h : ¬ (Config.fontBase ≤ a ∧ a < Config.fontBase + 80)) : Config.resetByte a = 0 :=
  if_neg h

theorem clearedRam_wf : clearedRam.wf = true := writeAll_wf rfl (by rw [List.length_replicate]; decide)

/-- After step 2 of R132 every address reads zero. -/
@[simp] theorem clearedRam_read (a : Nat) : clearedRam.read a = 0 := by
  by_cases h : Config.fontBase ≤ a ∧ a < Config.fontBase + 80
  · obtain ⟨k, rfl⟩ := Nat.exists_eq_add_of_le h.1
    rw [clearedRam, read_writeAll_inside (k := k) rfl (by rw [List.length_replicate]; decide)
      (by rw [List.length_replicate]; simp only [Config.fontLen]; omega), List.getElem_replicate]
  · rw [clearedRam, read_writeAll_outside (by rw [List.length_replicate]; simp only [Config.fontLen]; omega)]
    exact resetByte_outside h

theorem font_length (font : Font) : font.toList.length = 80 := by simp

theorem loadFont_wf (font : Font) : (loadFont font).ram.wf = true :=
  writeAll_wf clearedRam_wf (by rw [font_length]; decide)

/-- After step 3 of R132 the font's bytes stand at `FONT_BASE` in order. -/
theorem loadFont_read_inside (font : Font) (k : Fin 80) : (loadFont font).ram.read (Config.fontBase + k.val) = font[k] := by
  have := read_writeAll_inside (bs := font.toList) (k := k.val) clearedRam_wf (base := Config.fontBase)
    (by rw [font_length]; decide) (by rw [font_length]; exact k.isLt)
  simpa [loadFont] using this

/-- Everywhere else memory is zero. -/
theorem loadFont_read_outside (font : Font) {a : Nat} (h : ¬ (Config.fontBase ≤ a ∧ a < Config.fontBase + 80)) :
    (loadFont font).ram.read a = 0 := by
  have : (clearedRam.writeAll Config.fontBase font.toList).read a = clearedRam.read a :=
    read_writeAll_outside (by rw [font_length]; omega)
  simpa [loadFont] using this

theorem loadRom_of_le {rom : List Byte} (h : rom.length ≤ 3584) (s : State) :
    loadRom (.bytes rom) s = s.setRam (s.ram.writeAll Config.progBase rom) := by
  simp only [loadRom, WellFormed.rom, Config.romMax, h, decide_true, if_true]

theorem loadRom_of_gt {rom : List Byte} (h : rom.length > 3584) (s : State) :
    loadRom (.bytes rom) s = raise (.romTooLarge rom.length) s := by
  have : ¬ rom.length ≤ 3584 := by omega
  simp [loadRom, WellFormed.rom, Config.romMax, this]

/-- Everything a ROM load can do: the bytes copied, or one of the two load faults with nothing copied. -/
theorem loadRom_cases (src : RomSource) (s : State) :
    (∃ rom, src = .bytes rom ∧ rom.length ≤ 3584 ∧ loadRom src s = s.setRam (s.ram.writeAll Config.progBase rom))
    ∨ (∃ rom, src = .bytes rom ∧ rom.length > 3584 ∧ loadRom src s = raise (.romTooLarge rom.length) s)
    ∨ (src = .unreadable ∧ loadRom src s = raise .ioError s) := by
  cases src with
  | unreadable => exact .inr (.inr ⟨rfl, rfl⟩)
  | bytes rom =>
    rcases Nat.lt_or_ge 3584 rom.length with h | h
    · exact .inr (.inl ⟨rom, rfl, h, loadRom_of_gt h s⟩)
    · exact .inl ⟨rom, rfl, h, loadRom_of_le h s⟩

/-- No ROM load touches the low memory. -/
theorem loadRom_read_low (src : RomSource) (s : State) {a : Nat} (h : a < 0x200) :
    (loadRom src s).ram.read a = s.ram.read a := by
  rcases loadRom_cases src s with ⟨rom, _, _, e⟩ | ⟨rom, _, _, e⟩ | ⟨_, e⟩ <;> rw [e]
  · exact read_writeAll_outside (.inl h)
  · rfl
  · rfl

/-- A ROM load keeps memory canonical. -/
theorem loadRom_wf (src : RomSource) {s : State} (hs : s.ram.wf = true) : (loadRom src s).ram.wf = true := by
  rcases loadRom_cases src s with ⟨rom, _, h, e⟩ | ⟨rom, _, _, e⟩ | ⟨_, e⟩ <;> rw [e]
  · exact writeAll_wf hs (by simp only [Config.progBase]; omega)
  · exact hs
  · exact hs

/-- Memory after any boot is canonical. -/
theorem boot_ram_wf (font : FontSource) (src : RomSource) : (boot font src).ram.wf = true := by
  cases font with
  | unreadable => exact clearedRam_wf
  | bytes font => exact loadRom_wf src (loadFont_wf font)

end Sys2Proof.Machine
end

