-- ==== Sys2Proof/Laws/Decode.lean ====
section
/-! SUPPORT. The small lemmas of the decoder and the encoder: register fields, the fields of a composed word. -/

namespace Sys2Proof

@[simp] theorem regOfBits_bitsOfReg (r : Reg) : regOfBits (bitsOfReg r) = r := by
  apply Fin.ext
  simp only [regOfBits, bitsOfReg, BitVec.toNat_ofNat]
  omega

@[simp] theorem bitsOfReg_regOfBits (b : Nibble) : bitsOfReg (regOfBits b) = b := by
  apply BitVec.eq_of_toNat_eq
  simp only [regOfBits, bitsOfReg, BitVec.toNat_ofNat]
  omega

/-! ### Slices of a composed word -/

/-- A slice that lies in the high part. -/
theorem slice_left {n m : Nat} (a : BitVec n) (b : BitVec m) (j k w : Nat) (h : j = m + k) :
    (a ++ b).extractLsb' j w = a.extractLsb' k w := by
  subst h
  ext i hi
  simp [BitVec.getElem_extractLsb', BitVec.getLsbD_append, Nat.add_assoc]

/-- A slice that lies in the low part. -/
theorem slice_right {n m : Nat} (a : BitVec n) (b : BitVec m) (k w : Nat) (h : k + w ≤ m) :
    (a ++ b).extractLsb' k w = b.extractLsb' k w := by
  ext i hi
  have : k + i < m := by omega
  simp [BitVec.getElem_extractLsb', BitVec.getLsbD_append, this]

theorem slice_all {n : Nat} (a : BitVec n) : a.extractLsb' 0 n = a := by simp

/-! ### The fields of an encoded word, one lemma per format -/

@[simp] theorem cls_encodeNNN (c : Nibble) (nnn : Addr12) : (fieldsOf (encodeNNN c nnn)).cls = c :=
  (slice_left c nnn 12 0 4 rfl).trans (slice_all c)

@[simp] theorem nnn_encodeNNN (c : Nibble) (nnn : Addr12) : (fieldsOf (encodeNNN c nnn)).nnn = nnn :=
  (slice_right c nnn 0 12 (Nat.le_refl _)).trans (slice_all nnn)

@[simp] theorem cls_encodeXNN (c : Nibble) (x : Reg) (nn : Byte) : (fieldsOf (encodeXNN c x nn)).cls = c :=
  ((slice_left (c ++ bitsOfReg x) nn 12 4 4 rfl).trans (slice_left c (bitsOfReg x) 4 0 4 rfl)).trans (slice_all c)

@[simp] theorem x_encodeXNN (c : Nibble) (x : Reg) (nn : Byte) : (fieldsOf (encodeXNN c x nn)).x = x := by
  have : (encodeXNN c x nn).extractLsb' 8 4 = bitsOfReg x :=
    ((slice_left (c ++ bitsOfReg x) nn 8 0 4 rfl).trans (slice_right c (bitsOfReg x) 0 4 (Nat.le_refl _))).trans (slice_all _)
  simp only [fieldsOf, this, regOfBits_bitsOfReg]

@[simp] theorem nn_encodeXNN (c : Nibble) (x : Reg) (nn : Byte) : (fieldsOf (encodeXNN c x nn)).nn = nn :=
  (slice_right (c ++ bitsOfReg x) nn 0 8 (Nat.le_refl _)).trans (slice_all nn)

@[simp] theorem cls_encodeXYN (c : Nibble) (x y : Reg) (n : Nibble) : (fieldsOf (encodeXYN c x y n)).cls = c :=
  ((slice_left (c ++ bitsOfReg x ++ bitsOfReg y) n 12 8 4 rfl).trans
    (slice_left (c ++ bitsOfReg x) (bitsOfReg y) 8 4 4 rfl)).trans
      ((slice_left c (bitsOfReg x) 4 0 4 rfl).trans (slice_all c))

@[simp] theorem x_encodeXYN (c : Nibble) (x y : Reg) (n : Nibble) : (fieldsOf (encodeXYN c x y n)).x = x := by
  have : (encodeXYN c x y n).extractLsb' 8 4 = bitsOfReg x :=
    ((slice_left (c ++ bitsOfReg x ++ bitsOfReg y) n 8 4 4 rfl).trans
      (slice_left (c ++ bitsOfReg x) (bitsOfReg y) 4 0 4 rfl)).trans
        ((slice_right c (bitsOfReg x) 0 4 (Nat.le_refl _)).trans (slice_all _))
  simp only [fieldsOf, this, regOfBits_bitsOfReg]

@[simp] theorem y_encodeXYN (c : Nibble) (x y : Reg) (n : Nibble) : (fieldsOf (encodeXYN c x y n)).y = y := by
  have : (encodeXYN c x y n).extractLsb' 4 4 = bitsOfReg y :=
    ((slice_left (c ++ bitsOfReg x ++ bitsOfReg y) n 4 0 4 rfl).trans
      (slice_right (c ++ bitsOfReg x) (bitsOfReg y) 0 4 (Nat.le_refl _))).trans (slice_all _)
  simp only [fieldsOf, this, regOfBits_bitsOfReg]

@[simp] theorem n_encodeXYN (c : Nibble) (x y : Reg) (n : Nibble) : (fieldsOf (encodeXYN c x y n)).n = n :=
  (slice_right (c ++ bitsOfReg x ++ bitsOfReg y) n 0 4 (Nat.le_refl _)).trans (slice_all n)

/-! ### Words and bytes -/

@[simp] theorem highByte_wordOfBytes (hi lo : Byte) : highByte (wordOfBytes hi lo) = hi :=
  (slice_left hi lo 8 0 8 rfl).trans (slice_all hi)

@[simp] theorem lowByte_wordOfBytes (hi lo : Byte) : lowByte (wordOfBytes hi lo) = lo :=
  (slice_right hi lo 0 8 (Nat.le_refl _)).trans (slice_all lo)

/-- Two neighbouring slices make the wider slice. -/
theorem slices_append {n : Nat} (w : BitVec n) (j k l : Nat) :
    w.extractLsb' (j + l) k ++ w.extractLsb' j l = w.extractLsb' j (k + l) := by
  ext i hi
  simp only [BitVec.getElem_append, BitVec.getElem_extractLsb']
  split
  · rfl
  · congr 1; omega

/-- A word is its two bytes. -/
@[simp] theorem wordOfBytes_high_low (w : Word) : wordOfBytes (highByte w) (lowByte w) = w :=
  (slices_append w 0 8 8).trans (slice_all w)

/-- A mask acts on the two parts of a composed word separately. -/
theorem append_and {n m : Nat} (a p : BitVec n) (b q : BitVec m) : (a ++ b) &&& (p ++ q) = (a &&& p) ++ (b &&& q) := by
  ext i hi
  simp only [BitVec.getElem_append, BitVec.getElem_and]
  split <;> rfl

/-! ### Every word is composed of its fields, one lemma per format -/

theorem encodeNNN_fieldsOf (op : Word) : encodeNNN (fieldsOf op).cls (fieldsOf op).nnn = op :=
  (slices_append op 0 4 12).trans (slice_all op)

theorem encodeXNN_fieldsOf (op : Word) : encodeXNN (fieldsOf op).cls (fieldsOf op).x (fieldsOf op).nn = op := by
  have hx : bitsOfReg (fieldsOf op).x = op.extractLsb' 8 4 := bitsOfReg_regOfBits _
  unfold encodeXNN
  rw [hx]
  exact (congrArg (· ++ op.extractLsb' 0 8) (slices_append op 8 4 4)).trans
    ((slices_append op 0 8 8).trans (slice_all op))

theorem encodeXYN_fieldsOf (op : Word) :
    encodeXYN (fieldsOf op).cls (fieldsOf op).x (fieldsOf op).y (fieldsOf op).n = op := by
  have hx : bitsOfReg (fieldsOf op).x = op.extractLsb' 8 4 := bitsOfReg_regOfBits _
  have hy : bitsOfReg (fieldsOf op).y = op.extractLsb' 4 4 := bitsOfReg_regOfBits _
  unfold encodeXYN
  rw [hx, hy]
  have h1 : (fieldsOf op).cls ++ op.extractLsb' 8 4 = op.extractLsb' 8 8 := slices_append op 8 4 4
  have h2 : op.extractLsb' 8 8 ++ op.extractLsb' 4 4 = op.extractLsb' 4 12 := slices_append op 4 8 4
  rw [h1, h2]
  exact (slices_append op 0 12 4).trans (slice_all op)

end Sys2Proof
end

