-- ==== Sys2Proof/Laws/Draw.lean ====
section
/-! SUPPORT. What plotting does to one cell and to the collision report: one pixel, one sprite row, a whole sprite
(spec/45_display.md R100, R101). -/

namespace Sys2Proof.Machine

/-- XOR-plotting changes the addressed cell and no other. -/
theorem pixel_xorPixel (fb : Framebuffer) (row r : Fin 32) (col c : Fin 64) (bit : Bool) :
    (fb.xorPixel row col bit).pixel r c = if row = r ∧ col = c then fb.pixel r c ^^ bit else fb.pixel r c := by
  unfold Framebuffer.xorPixel Framebuffer.pixel
  by_cases hr : row = r
  · subst hr
    by_cases hc : col = c
    · subst hc; simp
    · have : (col : Nat) ≠ c := fun e => hc (Fin.ext e)
      simp [hc, this]
  · have : (row : Nat) ≠ r := fun e => hr (Fin.ext e)
    simp [hr, this]

@[simp] theorem plot_fb (cv : Canvas) (y x : Nat) (bit : Bool) :
    (cv.plot y x bit).fb = cv.fb.xorPixel (Fin.ofNat 32 y) (Fin.ofNat 64 x) bit := rfl

@[simp] theorem plot_hit (cv : Canvas) (y x : Nat) (bit : Bool) :
    (cv.plot y x bit).hit = (cv.hit || (bit && cv.fb.pixel (Fin.ofNat 32 y) (Fin.ofNat 64 x))) := rfl

/-- Two columns less than 64 apart are different cells. -/
theorem col_ne {x j j' : Nat} (h : j ≠ j') (hj : j < 64) (hj' : j' < 64) : Fin.ofNat 64 (x + j) ≠ Fin.ofNat 64 (x + j') := by
  intro e
  have := congrArg Fin.val e
  simp only [Fin.val_ofNat] at this
  omega

/-- Two rows less than 32 apart are different cells. -/
theorem row_ne {y j j' : Nat} (h : j ≠ j') (hj : j < 32) (hj' : j' < 32) : Fin.ofNat 32 (y + j) ≠ Fin.ofNat 32 (y + j') := by
  intro e
  have := congrArg Fin.val e
  simp only [Fin.val_ofNat] at this
  omega

/-- A sprite row leaves every cell it does not address. -/
theorem drawCols_other (y x : Nat) (b : Byte) (k : Nat) (c : Nat) (cv : Canvas) (row : Fin 32) (col : Fin 64)
    (h : ∀ j, c ≤ j → j < c + k → ¬ (Fin.ofNat 32 y = row ∧ Fin.ofNat 64 (x + j) = col)) :
    (drawCols y x b c k cv).fb.pixel row col = cv.fb.pixel row col := by
  induction k generalizing c cv with
  | zero => rfl
  | succ k ih =>
    rw [drawCols, ih (c + 1) _ (fun j h1 h2 => h j (by omega) (by omega)), plot_fb, pixel_xorPixel,
      if_neg (h c (Nat.le_refl _) (by omega))]

/-- A sprite row XORs its bit into each cell it addresses. -/
theorem drawCols_cell (y x : Nat) (b : Byte) (k : Nat) (c : Nat) (cv : Canvas) (hk : c + k ≤ 8) (j : Nat) (h1 : c ≤ j)
    (h2 : j < c + k) :
    (drawCols y x b c k cv).fb.pixel (Fin.ofNat 32 y) (Fin.ofNat 64 (x + j))
      = (cv.fb.pixel (Fin.ofNat 32 y) (Fin.ofNat 64 (x + j)) ^^ spriteBit b j) := by
  induction k generalizing c cv with
  | zero => omega
  | succ k ih =>
    rw [drawCols]
    by_cases hj : c = j
    · subst hj
      rw [drawCols_other, plot_fb, pixel_xorPixel, if_pos ⟨rfl, rfl⟩]
      intro j' h3 h4 h5
      exact col_ne (x := x) (show j' ≠ c by omega) (by omega) (by omega) h5.2
    · rw [ih (c + 1) _ (by omega) (by omega) (by omega), plot_fb, pixel_xorPixel, if_neg]
      intro h5
      exact col_ne (x := x) hj (by omega) (by omega) h5.2

/-- A sprite row reports a collision exactly when one of its 1 bits meets a lit cell. -/
theorem drawCols_hit (y x : Nat) (b : Byte) (k : Nat) (c : Nat) (cv : Canvas) (hk : c + k ≤ 8) :
    (drawCols y x b c k cv).hit = true ↔ cv.hit = true ∨ ∃ j, c ≤ j ∧ j < c + k ∧ spriteBit b j = true
      ∧ cv.fb.pixel (Fin.ofNat 32 y) (Fin.ofNat 64 (x + j)) = true := by
  induction k generalizing c cv with
  | zero => simp [drawCols]; intros; omega
  | succ k ih =>
    rw [drawCols, ih (c + 1) _ (by omega), plot_hit]
    have other : ∀ j, c + 1 ≤ j → j < c + 1 + k →
        (cv.plot y (x + c) (spriteBit b c)).fb.pixel (Fin.ofNat 32 y) (Fin.ofNat 64 (x + j))
          = cv.fb.pixel (Fin.ofNat 32 y) (Fin.ofNat 64 (x + j)) := by
      intro j h1 h2
      rw [plot_fb, pixel_xorPixel, if_neg]
      intro h5
      exact col_ne (x := x) (show c ≠ j by omega) (by omega) (by omega) h5.2
    simp only [Bool.or_eq_true, Bool.and_eq_true]
    constructor
    · rintro ((h | h) | ⟨j, h1, h2, h3, h4⟩)
      · exact .inl h
      · exact .inr ⟨c, Nat.le_refl _, by omega, h.1, h.2⟩
      · exact .inr ⟨j, by omega, by omega, h3, by rwa [other j h1 h2] at h4⟩
    · rintro (h | ⟨j, h1, h2, h3, h4⟩)
      · exact .inl (.inl h)
      · by_cases hj : c = j
        · subst hj; exact .inl (.inr ⟨h3, h4⟩)
        · exact .inr ⟨j, by omega, by omega, h3, by rw [other j (by omega) (by omega)]; exact h4⟩

/-- A sprite leaves every cell it does not address. -/
theorem drawRows_other (py px : Nat) (bs : List Byte) (r : Nat) (cv : Canvas) (row : Fin 32) (col : Fin 64)
    (h : ∀ k c, k < bs.length → c < 8 → ¬ (Fin.ofNat 32 (py + (r + k)) = row ∧ Fin.ofNat 64 (px + c) = col)) :
    (drawRows py px r bs cv).fb.pixel row col = cv.fb.pixel row col := by
  induction bs generalizing r cv with
  | nil => rfl
  | cons b bs ih =>
    rw [drawRows, ih, drawCols_other]
    · intro j _ h2
      exact h 0 j (by simp) (by omega)
    · intro k c hk hc
      rw [show r + 1 + k = r + (k + 1) by omega]
      exact h (k + 1) c (by simp; omega) hc

/-- A sprite XORs its bit into each cell it addresses. -/
theorem drawRows_cell (py px : Nat) (bs : List Byte) (r : Nat) (cv : Canvas) (hr : r + bs.length ≤ 32) (k c : Nat)
    (hk : k < bs.length) (hc : c < 8) :
    (drawRows py px r bs cv).fb.pixel (Fin.ofNat 32 (py + (r + k))) (Fin.ofNat 64 (px + c))
      = (cv.fb.pixel (Fin.ofNat 32 (py + (r + k))) (Fin.ofNat 64 (px + c)) ^^ spriteBit bs[k] c) := by
  induction bs generalizing r cv k with
  | nil => simp at hk
  | cons b bs ih =>
    simp only [List.length_cons] at hr hk
    rw [drawRows]
    cases k with
    | zero =>
      rw [drawRows_other]
      · simpa using drawCols_cell (py + r) px b 8 0 cv (by omega) c (by omega) (by omega)
      · intro k' c' h1 _ h3
        exact row_ne (y := py) (show r + 1 + k' ≠ r + 0 by omega) (by omega) (by omega) h3.1
    | succ k =>
      rw [show r + (k + 1) = r + 1 + k by omega, ih (r + 1) _ (by omega) k (by omega), drawCols_other]
      · simp
      · intro j _ _ h3
        exact row_ne (y := py) (show r ≠ r + 1 + k by omega) (by omega) (by omega) h3.1

/-- A sprite reports a collision exactly when one of its 1 bits meets a lit cell. -/
theorem drawRows_hit (py px : Nat) (bs : List Byte) (r : Nat) (cv : Canvas) (hr : r + bs.length ≤ 32) :
    (drawRows py px r bs cv).hit = true ↔ cv.hit = true ∨ ∃ k c, ∃ hk : k < bs.length, c < 8 ∧ spriteBit bs[k] c = true
      ∧ cv.fb.pixel (Fin.ofNat 32 (py + (r + k))) (Fin.ofNat 64 (px + c)) = true := by
  induction bs generalizing r cv with
  | nil => simp [drawRows]
  | cons b bs ih =>
    simp only [List.length_cons] at hr
    rw [drawRows, ih (r + 1) _ (by omega), drawCols_hit _ _ _ _ _ _ (by omega)]
    have other : ∀ k c, k < bs.length →
        (drawCols (py + r) px b 0 8 cv).fb.pixel (Fin.ofNat 32 (py + (r + 1 + k))) (Fin.ofNat 64 (px + c))
          = cv.fb.pixel (Fin.ofNat 32 (py + (r + 1 + k))) (Fin.ofNat 64 (px + c)) := by
      intro k c hk
      apply drawCols_other
      intro j _ _ h3
      exact row_ne (y := py) (show r ≠ r + 1 + k by omega) (by omega) (by omega) h3.1
    constructor
    · rintro ((h | ⟨j, _, h2, h3, h4⟩) | ⟨k, c, hk, hc, h3, h4⟩)
      · exact .inl h
      · exact .inr ⟨0, j, by simp, by omega, h3, h4⟩
      · refine .inr ⟨k + 1, c, by simp; omega, hc, by simpa using h3, ?_⟩
        rw [other k c hk] at h4
        rwa [show r + (k + 1) = r + 1 + k by omega]
    · rintro (h | ⟨k, c, hk, hc, h3, h4⟩)
      · exact .inl (.inl h)
      · cases k with
        | zero => exact .inl (.inr ⟨c, by omega, by omega, h3, h4⟩)
        | succ k =>
          have hk' : k < bs.length := by simp at hk; omega
          refine .inr ⟨k, c, hk', hc, by simpa using h3, ?_⟩
          rw [other k c hk']
          rwa [show r + 1 + k = r + (k + 1) by omega]

end Sys2Proof.Machine
end

