-- ==== Sys2Proof/Laws/Step.lean ====
section
/-! SUPPORT. What the parts of a step can do, said once: fetch, the end of a step, the step itself, a store at `I`,
taking a fault (spec/40_step_cycle.md). -/

namespace Sys2Proof.Machine

theorem halted_iff (s : State) : s.halted = true ↔ ¬ s.running := by simp [State.halted, State.running]

theorem halted_eq_false_iff (s : State) : s.halted = false ↔ s.running := by simp [State.halted, State.running]

/-- No fault code is 0 (R111), so a core that took a fault is halted. -/
theorem code_ne_zero (c : FaultCause) : c.code ≠ 0 := by cases c <;> simp [FaultCause.code]

theorem code_le (c : FaultCause) : c.code.toNat ≤ 6 := by cases c <;> simp [FaultCause.code]

theorem raise_not_running (c : FaultCause) (s : State) : ¬ (raise c s).running := code_ne_zero c

/-! ### Frames -/

/-- Nothing changes in an unchanged state. -/
theorem sameBut_refl (ps : List Part) (s : State) : SameBut ps s s := by
  intro p _
  cases p <;> simp [Part.Same]

/-- Taking a fault changes the latch and its `info` only (R112). -/
theorem raise_tookFault (c : FaultCause) (s : State) : TookFault c s (raise c s) := by
  refine ⟨rfl, rfl, ?_⟩
  intro p hp
  cases p <;> first | (simp at hp; done) | simp [Part.Same]

/-- A longer list of written parts is a weaker frame. -/
theorem sameBut_mono {ps qs : List Part} {s t : State} (h : SameBut ps s t) (hs : ∀ p ∈ ps, p ∈ qs) : SameBut qs s t :=
  fun p hp => h p fun hq => hp (hs p hq)

/-! ### Fetch -/

/-- Below `0xFFF` a fetch reads the two bytes. -/
theorem fetch_of_lt {s : State} (h : s.pc.toNat + 1 < 4096) :
    fetch s = .ok (wordOfBytes (s.ram.read s.pc.toNat) (s.ram.read (s.pc.toNat + 1))) := by
  have h1 : s.pc.toNat < 4096 := by omega
  simp [fetch, memRead, Config.ramSize, h, h1]

/-- From `0xFFF` on it faults with the lowest address that does not exist. -/
theorem fetch_of_ge {s : State} (h : 4096 ≤ s.pc.toNat + 1) : fetch s = .error (.outOfBounds (max s.pc.toNat 4096)) := by
  have h2 : ¬ s.pc.toNat + 1 < 4096 := by omega
  by_cases h1 : s.pc.toNat < 4096
  · have : max s.pc.toNat 4096 = s.pc.toNat + 1 := by omega
    simp [fetch, memRead, Config.ramSize, h1, h2, this]
  · have : max s.pc.toNat 4096 = s.pc.toNat := by omega
    simp [fetch, memRead, Config.ramSize, h1, this]

/-! ### Stages -/

/-- A store at `I` either stores every byte or faults. -/
theorem storeAtI_cases (bs : List Byte) (s : State) :
    (inRange s.base bs.length = true ∧ storeAtI bs s = .next (s.setRam (s.ram.writeAll s.base bs)).advance)
    ∨ (inRange s.base bs.length = false ∧ storeAtI bs s = .next (raise (rangeFault s.base) s)) := by
  unfold storeAtI
  cases inRange s.base bs.length <;> simp

/-- What the end of a step answers, when it answers a next state. -/
theorem endStep_cases {b : Bool} {r : Result} {t : State} (h : endStep b r = .next t) :
    ∃ u, r = .next u ∧ ((b = true ∧ u.halted = false ∧ t = tick u) ∨ ((b = false ∨ u.halted = true) ∧ t = u)) := by
  cases r with
  | next u =>
    refine ⟨u, rfl, ?_⟩
    simp only [endStep] at h
    split at h
    · next hc =>
      cases h
      simp only [Bool.and_eq_true, Bool.not_eq_true'] at hc
      exact .inl ⟨hc.1, hc.2, rfl⟩
    · next hc =>
      cases h
      refine .inr ⟨?_, rfl⟩
      cases b <;> simp_all
  | fault c => cases h
  | refused c => cases h

/-- A halted core answers the state it is in. -/
theorem coreStep_of_halted (b : Bool) {s : State} (h : ¬ s.running) : coreStep b s = .next s := by
  rw [coreStep, if_pos ((halted_iff s).mpr h)]

/-- A running core whose fetch leaves `ram` takes the fault. -/
theorem coreStep_of_ge (b : Bool) {s : State} (hr : s.running) (h : 4096 ≤ s.pc.toNat + 1) :
    coreStep b s = .next (raise (.outOfBounds (max s.pc.toNat 4096)) s) := by
  simp only [coreStep, (halted_eq_false_iff s).mpr hr, fetch_of_ge h, Bool.false_eq_true, if_false]

/-- A running core that fetches an illegal word takes the fault. -/
theorem coreStep_of_illegal (b : Bool) {s : State} {op w : Word} (hr : s.running) (hf : fetch s = .ok op)
    (hd : decode op = .illegalOpcode w) : coreStep b s = .next (raise (.illegalOpcode w) s) := by
  simp only [coreStep, (halted_eq_false_iff s).mpr hr, hf, hd, Bool.false_eq_true, if_false]

/-- A running core that fetches an instruction executes it and ends the step. -/
theorem coreStep_of_fetches (b : Bool) {s : State} {i : Instr} (hr : s.running) (hf : s.fetches i) :
    coreStep b s = endStep b (exec i s) := by
  simp only [coreStep, (halted_eq_false_iff s).mpr hr, fetch_of_lt hf.1, hf.2, Bool.false_eq_true, if_false]

/-- Everything a core step can do, when it answers a next state. -/
theorem coreStep_cases {b : Bool} {s t : State} (h : coreStep b s = .next t) :
    (¬ s.running ∧ t = s)
    ∨ (s.running ∧ 4096 ≤ s.pc.toNat + 1 ∧ t = raise (.outOfBounds (max s.pc.toNat 4096)) s)
    ∨ (s.running ∧ ∃ op w, fetch s = .ok op ∧ decode op = .illegalOpcode w ∧ t = raise (.illegalOpcode w) s)
    ∨ (s.running ∧ ∃ i, s.fetches i ∧ endStep b (exec i s) = .next t) := by
  unfold coreStep at h
  split at h
  · next hh => cases h; exact .inl ⟨(halted_iff s).mp hh, rfl⟩
  · next hh =>
    have hr : s.running := (halted_eq_false_iff s).mp (by simpa using hh)
    by_cases hpc : s.pc.toNat + 1 < 4096
    · rw [fetch_of_lt hpc] at h
      simp only at h
      split at h
      · next i hd => exact .inr (.inr (.inr ⟨hr, i, ⟨hpc, hd⟩, h⟩))
      · next w hd => cases h; exact .inr (.inr (.inl ⟨hr, _, w, fetch_of_lt hpc, hd, rfl⟩))
    · rw [fetch_of_ge (by omega)] at h
      cases h
      exact .inr (.inl ⟨hr, by omega, rfl⟩)

/-- The host's turn does not touch what a fetch reads. -/
theorem afterTurn_fetches (s : State) (i : Instr) : s.afterTurn.fetches i ↔ s.fetches i := by
  simp [State.fetches]

theorem afterTurn_running (s : State) : s.afterTurn.running ↔ s.running := by simp [State.running]

end Sys2Proof.Machine
end

