-- ==== Sys2Proof/Laws/Exec.lean ====
section
/-! SUPPORT. What the meanings with more than one outcome answer, said once per outcome: the stack, the accesses at `I`,
the draw. -/

namespace Sys2Proof.Machine

/-- `00EE` with a return address on the stack. -/
theorem execRet_of_pos {s : State} (h0 : s.sp ≠ 0) (h : s.sp.toNat - 1 < 16) :
    execRet s = .next (s.drop.setPc (s.top h)) := by
  simp only [execRet, if_neg h0, dif_pos h]

/-- `2nnn` with room on the stack. -/
theorem execCall_of_lt {s : State} (nnn : Addr12) (h : s.sp.toNat < 16) :
    execCall nnn s = .next ((s.push (s.pc + 2) h).setPc (addrOf nnn)) := by
  have h0 : s.sp ≠ 16 := by rintro e; rw [e] at h; simp at h
  simp only [execCall, if_neg h0, dif_pos h]

/-- A store at `I` inside `ram`: each byte reads back and every other byte stays. -/
theorem storeAtI_of_le {bs : List Byte} {s : State} (hw : s.ram.wf = true) (h : s.i.toNat + bs.length ≤ 4096) :
    ∃ t, storeAtI bs s = .next t ∧ t = (s.setRam (s.ram.writeAll s.base bs)).advance
      ∧ (∀ k (hk : k < bs.length), t.ram.read (s.i.toNat + k) = bs[k]) ∧ SameBytesBut s.i.toNat bs.length s t := by
  rcases storeAtI_cases bs s with ⟨_, h2⟩ | ⟨h1, _⟩
  · refine ⟨_, h2, rfl, fun k hk => read_writeAll_inside hw h hk, ?_⟩
    intro a ha
    exact read_writeAll_outside (by simp only [State.base]; omega)
  · have : ¬ inRange s.base bs.length = true := by simp [h1]
    rw [inRange_iff] at this
    simp only [State.base] at this
    omega

/-- A store at `I` that leaves `ram` faults. -/
theorem storeAtI_of_gt {bs : List Byte} {s : State} (hb : bs ≠ []) (h : 4096 < s.i.toNat + bs.length) :
    storeAtI bs s = .next (raise (.outOfBounds (max s.i.toNat 4096)) s) := by
  rcases storeAtI_cases bs s with ⟨h1, _⟩ | ⟨_, h2⟩
  · rw [inRange_iff] at h1
    simp only [State.base, List.length_eq_zero_iff, hb, false_or] at h1
    omega
  · exact h2

@[simp] theorem decimalDigits_length (b : Byte) : (decimalDigits b).length = 3 := rfl

@[simp] theorem regRange_length (s : State) (x : Reg) : (s.regRange x).length = x.val + 1 := by
  simp only [State.regRange, rangeLen, List.length_take, Vector.length_toList]
  omega

@[simp] theorem regRange_getElem (s : State) (x r : Reg) (h : r.val < (s.regRange x).length) :
    (s.regRange x)[r.val] = s.reg r := by
  simp [State.regRange, State.reg]

/-- `Fx65` inside `ram`. -/
theorem execLoadRegs_of_lt {x : Reg} {s : State} (h : s.i.toNat + x.val < 4096) :
    execLoadRegs x s = .next (s.setRegs (s.loadedRange x)).advance := by
  have : inRange s.base (rangeLen x) = true := by rw [inRange_iff]; simp only [State.base, rangeLen]; omega
  simp only [execLoadRegs, if_pos this]

/-- `Fx65` that leaves `ram` faults. -/
theorem execLoadRegs_of_ge {x : Reg} {s : State} (h : 4096 ≤ s.i.toNat + x.val) :
    execLoadRegs x s = .next (raise (.outOfBounds (max s.i.toNat 4096)) s) := by
  have : ¬ inRange s.base (rangeLen x) = true := by rw [inRange_iff]; simp only [State.base, rangeLen]; omega
  simp only [execLoadRegs, if_neg this]
  rfl

/-- The loaded register file, register by register. -/
@[simp] theorem loadedRange_getElem (s : State) (x r : Reg) :
    (s.loadedRange x)[r] = if r ≤ x then s.ram.read (s.i.toNat + r.val) else s.reg r := by
  simp [State.loadedRange, State.base]

/-- `Dxyn` whose sprite bytes all exist. -/
theorem execDrw_of_le {x y : Reg} {n : Nibble} {s : State} (h : n = 0 ∨ s.i.toNat + n.toNat ≤ 4096) :
    execDrw x y n s = .next ((s.setFb (s.drawn x y n).fb).setReg regF (flagByte (s.drawn x y n).hit)).advance := by
  have : inRange s.base n.toNat = true := by
    rw [inRange_iff]
    rcases h with h | h
    · exact .inl (by simp [h])
    · exact .inr h
  simp only [execDrw, if_pos this]

/-- `Dxyn` with a sprite byte outside `ram` faults. -/
theorem execDrw_of_gt {x y : Reg} {n : Nibble} {s : State} (hn : n ≠ 0) (h : 4096 < s.i.toNat + n.toNat) :
    execDrw x y n s = .next (raise (.outOfBounds (max s.i.toNat 4096)) s) := by
  have hn' : n.toNat ≠ 0 := fun e => hn (BitVec.eq_of_toNat_eq (by simpa using e))
  have : ¬ inRange s.base n.toNat = true := by rw [inRange_iff]; simp only [State.base]; omega
  simp only [execDrw, if_neg this]
  rfl

end Sys2Proof.Machine
end

