-- ==== Sys2Proof/Laws/PerInstr.lean ====
section
/-! SUPPORT. Statements about every instruction as syntax, one lemma per constructor. RowFits: the encoder's word
carries the fixed bits of its row of the opcode map (spec/30_encoding.md R50), whatever the operands are. -/

namespace Sys2Proof.Laws

theorem nibble_all (c : Nibble) : c &&& 0xF#4 = c := by revert c; decide
theorem nibble_none (c : Nibble) : c &&& 0x0#4 = 0#4 := by revert c; decide
theorem byte_all (b : Byte) : b &&& 0xFF#8 = b := BitVec.and_allOnes

/-- The fixed bits of format `NNN`. -/
theorem mask_encodeNNN (c : Nibble) (nnn : Addr12) : encodeNNN c nnn &&& 0xF000 = encodeNNN c 0 := by
  refine (append_and c 0xF#4 nnn 0#12).trans ?_
  rw [nibble_all, BitVec.and_zero]; rfl

/-- The fixed bits of a format `XNN` whose `nn` is free. -/
theorem mask_encodeXNN (c : Nibble) (x : Reg) (nn : Byte) : encodeXNN c x nn &&& 0xF000 = encodeXNN c 0 0 := by
  refine (append_and (c ++ bitsOfReg x) (0xF#4 ++ 0x0#4) nn 0#8).trans ?_
  rw [append_and, nibble_all, nibble_none, BitVec.and_zero]; rfl

/-- The fixed bits of format `XSS`. -/
theorem mask_encodeXSS (c : Nibble) (x : Reg) (nn : Byte) : encodeXNN c x nn &&& 0xF0FF = encodeXNN c 0 nn := by
  refine (append_and (c ++ bitsOfReg x) (0xF#4 ++ 0x0#4) nn 0xFF#8).trans ?_
  rw [append_and, nibble_all, nibble_none, byte_all]; rfl

/-- The fixed bits of format `XYN`. -/
theorem mask_encodeXYN (c : Nibble) (x y : Reg) (n : Nibble) : encodeXYN c x y n &&& 0xF000 = encodeXYN c 0 0 0 := by
  refine (append_and (c ++ bitsOfReg x ++ bitsOfReg y) (0xF#4 ++ 0x0#4 ++ 0x0#4) n 0x0#4).trans ?_
  rw [append_and, append_and, nibble_all, nibble_none, nibble_none, nibble_none]; rfl

/-- The fixed bits of format `XYS`. -/
theorem mask_encodeXYS (c : Nibble) (x y : Reg) (n : Nibble) : encodeXYN c x y n &&& 0xF00F = encodeXYN c 0 0 n := by
  refine (append_and (c ++ bitsOfReg x ++ bitsOfReg y) (0xF#4 ++ 0x0#4 ++ 0x0#4) n 0xF#4).trans ?_
  rw [append_and, append_and, nibble_all, nibble_none, nibble_none, nibble_all]; rfl

namespace RowFits

/-- The word of the instruction selects the instruction's own row. -/
def Statement (i : Instr) : Prop := encode i &&& (rowOf i).mask = (rowOf i).pattern

theorem cls : Statement .cls := rfl
theorem ret : Statement .ret := rfl
theorem jp (nnn : Addr12) : Statement (.jp nnn) := (mask_encodeNNN _ _).trans rfl
theorem call (nnn : Addr12) : Statement (.call nnn) := (mask_encodeNNN _ _).trans rfl
theorem seImm (x : Reg) (nn : Byte) : Statement (.seImm x nn) := (mask_encodeXNN _ _ _).trans rfl
theorem sneImm (x : Reg) (nn : Byte) : Statement (.sneImm x nn) := (mask_encodeXNN _ _ _).trans rfl
theorem seReg (x y : Reg) : Statement (.seReg x y) := (mask_encodeXYS _ _ _ _).trans rfl
theorem ldImm (x : Reg) (nn : Byte) : Statement (.ldImm x nn) := (mask_encodeXNN _ _ _).trans rfl
theorem addImm (x : Reg) (nn : Byte) : Statement (.addImm x nn) := (mask_encodeXNN _ _ _).trans rfl
theorem ldReg (x y : Reg) : Statement (.ldReg x y) := (mask_encodeXYS _ _ _ _).trans rfl
theorem orReg (x y : Reg) : Statement (.orReg x y) := (mask_encodeXYS _ _ _ _).trans rfl
theorem andReg (x y : Reg) : Statement (.andReg x y) := (mask_encodeXYS _ _ _ _).trans rfl
theorem xorReg (x y : Reg) : Statement (.xorReg x y) := (mask_encodeXYS _ _ _ _).trans rfl
theorem addReg (x y : Reg) : Statement (.addReg x y) := (mask_encodeXYS _ _ _ _).trans rfl
theorem subReg (x y : Reg) : Statement (.subReg x y) := (mask_encodeXYS _ _ _ _).trans rfl
theorem shr (x y : Reg) : Statement (.shr x y) := (mask_encodeXYS _ _ _ _).trans rfl
theorem subnReg (x y : Reg) : Statement (.subnReg x y) := (mask_encodeXYS _ _ _ _).trans rfl
theorem shl (x y : Reg) : Statement (.shl x y) := (mask_encodeXYS _ _ _ _).trans rfl
theorem sneReg (x y : Reg) : Statement (.sneReg x y) := (mask_encodeXYS _ _ _ _).trans rfl
theorem ldI (nnn : Addr12) : Statement (.ldI nnn) := (mask_encodeNNN _ _).trans rfl
theorem jpV0 (nnn : Addr12) : Statement (.jpV0 nnn) := (mask_encodeNNN _ _).trans rfl
theorem rnd (x : Reg) (nn : Byte) : Statement (.rnd x nn) := (mask_encodeXNN _ _ _).trans rfl
theorem drw (x y : Reg) (n : Nibble) : Statement (.drw x y n) := (mask_encodeXYN _ _ _ _).trans rfl
theorem skp (x : Reg) : Statement (.skp x) := (mask_encodeXSS _ _ _).trans rfl
theorem sknp (x : Reg) : Statement (.sknp x) := (mask_encodeXSS _ _ _).trans rfl
theorem ldVxDT (x : Reg) : Statement (.ldVxDT x) := (mask_encodeXSS _ _ _).trans rfl
theorem ldVxK (x : Reg) : Statement (.ldVxK x) := (mask_encodeXSS _ _ _).trans rfl
theorem ldDTVx (x : Reg) : Statement (.ldDTVx x) := (mask_encodeXSS _ _ _).trans rfl
theorem ldSTVx (x : Reg) : Statement (.ldSTVx x) := (mask_encodeXSS _ _ _).trans rfl
theorem addI (x : Reg) : Statement (.addI x) := (mask_encodeXSS _ _ _).trans rfl
theorem ldF (x : Reg) : Statement (.ldF x) := (mask_encodeXSS _ _ _).trans rfl
theorem ldB (x : Reg) : Statement (.ldB x) := (mask_encodeXSS _ _ _).trans rfl
theorem storeRegs (x : Reg) : Statement (.storeRegs x) := (mask_encodeXSS _ _ _).trans rfl
theorem loadRegs (x : Reg) : Statement (.loadRegs x) := (mask_encodeXSS _ _ _).trans rfl

/-- Every instruction's word selects the instruction's own row. -/
theorem all : ∀ i : Instr, Statement i
  | .cls => cls
  | .ret => ret
  | .jp nnn => jp nnn
  | .call nnn => call nnn
  | .seImm x nn => seImm x nn
  | .sneImm x nn => sneImm x nn
  | .seReg x y => seReg x y
  | .ldImm x nn => ldImm x nn
  | .addImm x nn => addImm x nn
  | .ldReg x y => ldReg x y
  | .orReg x y => orReg x y
  | .andReg x y => andReg x y
  | .xorReg x y => xorReg x y
  | .addReg x y => addReg x y
  | .subReg x y => subReg x y
  | .shr x y => shr x y
  | .subnReg x y => subnReg x y
  | .shl x y => shl x y
  | .sneReg x y => sneReg x y
  | .ldI nnn => ldI nnn
  | .jpV0 nnn => jpV0 nnn
  | .rnd x nn => rnd x nn
  | .drw x y n => drw x y n
  | .skp x => skp x
  | .sknp x => sknp x
  | .ldVxDT x => ldVxDT x
  | .ldVxK x => ldVxK x
  | .ldDTVx x => ldDTVx x
  | .ldSTVx x => ldSTVx x
  | .addI x => addI x
  | .ldF x => ldF x
  | .ldB x => ldB x
  | .storeRegs x => storeRegs x
  | .loadRegs x => loadRegs x

end RowFits

end Sys2Proof.Laws
end

