-- ==== Sys2Proof/Tests/Slice0.lean ====
section
/-! SUPPORT. Tests: the checks of WellFormed, every constructor's decoding, one or two steps per instruction with the
expected results of spec/95_test_vectors.md (the row is named), and a witness for the hypotheses of each statement. -/

namespace Sys2Proof.Tests

open Sys2Proof.Machine

/-! ### WellFormed refuses what is ill-formed -/

theorem test_wf_rom_too_long : WellFormed.rom (List.replicate 3585 0) = false := by
  rw [WellFormed.rom, List.length_replicate]; decide

theorem test_wf_rom_longest : WellFormed.rom (List.replicate 3584 0) = true := by
  rw [WellFormed.rom, List.length_replicate]; decide

theorem test_wf_font_short : WellFormed.font (Config.fontTable.drop 1) = false := by decide

theorem test_wf_font : WellFormed.font Config.fontTable = true := by decide

theorem test_wf_font_base_too_high : WellFormed.fontBase 0x1B1 = false := by decide

theorem test_wf_font_base : WellFormed.fontBase Config.fontBase = true := by decide

/-! ### Decoding: each word is written out from the pattern of spec/30_encoding.md R50, digit by digit -/

theorem test_decode_class_0 : decode 0x00E0 = .instr .cls ∧ decode 0x00EE = .instr .ret := by decide

theorem test_decode_nnn : decode 0x1ABC = .instr (.jp 0xABC) ∧ decode 0x2345 = .instr (.call 0x345)
    ∧ decode 0xA123 = .instr (.ldI 0x123) ∧ decode 0xBFFF = .instr (.jpV0 0xFFF) := by decide

theorem test_decode_skips : decode 0x3142 = .instr (.seImm 1 0x42) ∧ decode 0x4F01 = .instr (.sneImm 0xF 0x01)
    ∧ decode 0x5AB0 = .instr (.seReg 0xA 0xB) ∧ decode 0x9340 = .instr (.sneReg 3 4) := by decide

theorem test_decode_xnn : decode 0x6A42 = .instr (.ldImm 0xA 0x42) ∧ decode 0x71FF = .instr (.addImm 1 0xFF)
    ∧ decode 0xC53C = .instr (.rnd 5 0x3C) := by decide

theorem test_decode_class_8_logic : decode 0x8120 = .instr (.ldReg 1 2) ∧ decode 0x8121 = .instr (.orReg 1 2)
    ∧ decode 0x8122 = .instr (.andReg 1 2) ∧ decode 0x8123 = .instr (.xorReg 1 2) := by decide

theorem test_decode_class_8_flags : decode 0x8AB4 = .instr (.addReg 0xA 0xB) ∧ decode 0x8125 = .instr (.subReg 1 2)
    ∧ decode 0x8126 = .instr (.shr 1 2) ∧ decode 0x8127 = .instr (.subnReg 1 2)
    ∧ decode 0x812E = .instr (.shl 1 2) := by decide

theorem test_decode_draw_keys : decode 0xD5A3 = .instr (.drw 5 0xA 3) ∧ decode 0xE29E = .instr (.skp 2)
    ∧ decode 0xE3A1 = .instr (.sknp 3) ∧ decode 0xF20A = .instr (.ldVxK 2) := by decide

theorem test_decode_timers : decode 0xF107 = .instr (.ldVxDT 1) ∧ decode 0xF015 = .instr (.ldDTVx 0)
    ∧ decode 0xFF18 = .instr (.ldSTVx 0xF) := by decide

theorem test_decode_index : decode 0xF21E = .instr (.addI 2) ∧ decode 0xFA29 = .instr (.ldF 0xA)
    ∧ decode 0xF233 = .instr (.ldB 2) ∧ decode 0xF355 = .instr (.storeRegs 3)
    ∧ decode 0xF265 = .instr (.loadRegs 2) := by decide

/-- V-ENC: words that might be thought legal. -/
theorem test_decode_illegal_class_0 : decode 0x0000 = .illegalOpcode 0x0000 ∧ decode 0x00E1 = .illegalOpcode 0x00E1
    ∧ decode 0x01E0 = .illegalOpcode 0x01E0 ∧ decode 0x0123 = .illegalOpcode 0x0123 := by decide

/-- V-ENC, the other classes with words to spare. -/
theorem test_decode_illegal : decode 0x5001 = .illegalOpcode 0x5001 ∧ decode 0x9001 = .illegalOpcode 0x9001
    ∧ decode 0x800F = .illegalOpcode 0x800F ∧ decode 0xE09F = .illegalOpcode 0xE09F
    ∧ decode 0xF001 = .illegalOpcode 0xF001 := by decide

/-- V-ENC: the byte order of a word; one byte is not an instruction. -/
theorem test_decode_bytes : decodeBytes [0x12, 0x34, 0x77] = .instr (.jp 0x234) [0x77] ∧ decodeBytes [0x12] = .truncated := by
  decide

/-! ### One step from reset, `tick = 0`, the word at `0x200` -/

/-- The reset state with a word at `PC`, the host holding `tick` at 0, and some state set. -/
def ready (w : Nat) (set : State → State) : State :=
  set { State.reset.withFetchWord 16 w with turns := [⟨none, false⟩] }

/-- The state after a result, if it is a next state. -/
def after (r : Result) : Option State :=
  match r with
  | .next t => some t
  | .fault _ => none
  | .refused _ => none

/-- What is seen of the state after one step. -/
def seen {α : Type} (w : Nat) (set : State → State) (look : State → α) : Option α := (after (step (ready w set))).map look

/-- V-FLOW 8, 10. -/
theorem test_ret : seen 0x00EE (fun s => { s with sp := 1, stack := s.stack.set 0 0x0456 }) (fun t => (t.pc, t.sp, t.fault))
    = some (0x0456, 0, 0) := by decide
theorem test_ret_underflow : seen 0x00EE id (fun t => (t.pc, t.sp, t.fault, t.faultInfo)) = some (0x0200, 0, 4, none) := by
  decide

/-- V-FLOW 1. -/
theorem test_jp : seen 0x1ABC id (fun t => t.pc) = some 0x0ABC := by decide

/-- V-FLOW 6, 7. -/
theorem test_call_last : seen 0x2300 (fun s => { s with sp := 15 }) (fun t => (t.pc, t.sp, t.stack[15])) = some (0x300, 16, 0x202) := by
  decide
theorem test_call_overflow : seen 0x2300 (fun s => { s with sp := 16 }) (fun t => (t.pc, t.sp, t.fault)) = some (0x200, 16, 3) := by
  decide

/-- V-FLOW 12, 14. -/
theorem test_jpV0_uses_V0 : seen 0xB300 (fun s => s.setReg 3 0x55) (fun t => t.pc) = some 0x0300 := by decide
theorem test_jpV0_top : seen 0xBFFF (fun s => s.setReg 0 0xFF) (fun t => t.pc) = some 0x10FE := by decide

/-- V-SKIP 1, 5, 7, 12. -/
theorem test_seImm : seen 0x3042 (fun s => s.setReg 0 0x42) (fun t => t.pc) = some 0x0204 := by decide
theorem test_sneImm : seen 0x4042 (fun s => s.setReg 0 0x42) (fun t => t.pc) = some 0x0202 := by decide
theorem test_seReg : seen 0x5010 (fun s => (s.setReg 0 7).setReg 1 8) (fun t => t.pc) = some 0x0202 := by decide
theorem test_sneReg : seen 0x9010 (fun s => (s.setReg 0 7).setReg 1 8) (fun t => t.pc) = some 0x0204 := by decide

/-- V-ALU 2, 4, 7. -/
theorem test_ldImm : seen 0x6F12 id (fun t => (t.reg 15, t.pc)) = some (0x12, 0x0202) := by decide
theorem test_addImm_wraps : seen 0x7001 (fun s => (s.setReg 0 0xFF).setReg 15 7) (fun t => (t.reg 0, t.reg 15)) = some (0, 7) := by
  decide

/-- V-ALU 8, 11, 12, 13, 15. -/
theorem test_ldReg : seen 0x8010 (fun s => (s.setReg 0 0x11).setReg 1 0x3C) (fun t => (t.reg 0, t.reg 1)) = some (0x3C, 0x3C) := by
  decide
theorem test_orReg : seen 0x8F11 (fun s => (s.setReg 1 0x3C).setReg 15 0x41) (fun t => t.reg 15) = some 0x7D := by decide
theorem test_andReg : seen 0x8F12 (fun s => (s.setReg 1 0x3C).setReg 15 0x6F) (fun t => t.reg 15) = some 0x2C := by decide
theorem test_xorReg : seen 0x8013 (fun s => ((s.setReg 0 0xF0).setReg 1 0x3C).setReg 15 7) (fun t => (t.reg 0, t.reg 15))
    = some (0xCC, 7) := by decide

/-- V-ALU 23, 24. -/
theorem test_addReg_old_vf : seen 0x80F4 (fun s => (s.setReg 0 0x10).setReg 15 1) (fun t => (t.reg 0, t.reg 15)) = some (0x11, 0) := by
  decide
theorem test_addReg_flag_wins : seen 0x8F14 (fun s => (s.setReg 1 0x20).setReg 15 0xF0) (fun t => t.reg 15) = some 1 := by decide

/-- V-ALU 29, 36. -/
theorem test_subReg_equal : seen 0x8015 (fun s => (s.setReg 0 7).setReg 1 7) (fun t => (t.reg 0, t.reg 15)) = some (0, 0) := by decide
theorem test_subReg_old_vf : seen 0x80F5 (fun s => (s.setReg 0 9).setReg 15 1) (fun t => (t.reg 0, t.reg 15)) = some (8, 1) := by decide

/-- V-ALU 46, 52. -/
theorem test_shr_ignores_vy : seen 0x8016 (fun s => (s.setReg 0 5).setReg 1 0xAA) (fun t => (t.reg 0, t.reg 1, t.reg 15))
    = some (2, 0xAA, 1) := by decide
theorem test_shr_flag_wins : seen 0x8F06 (fun s => s.setReg 15 2) (fun t => t.reg 15) = some 0 := by decide

/-- V-ALU 39, 40. -/
theorem test_subnReg : seen 0x8017 (fun s => (s.setReg 0 5).setReg 1 3) (fun t => (t.reg 0, t.reg 15)) = some (0xFE, 0) := by decide
theorem test_subnReg_equal : seen 0x8017 (fun s => (s.setReg 0 7).setReg 1 7) (fun t => (t.reg 0, t.reg 15)) = some (0, 1) := by decide

/-- V-ALU 54, 60. -/
theorem test_shl_ignores_vy : seen 0x801E (fun s => (s.setReg 0 0x81).setReg 1 0xAA) (fun t => (t.reg 0, t.reg 1, t.reg 15))
    = some (2, 0xAA, 1) := by decide
theorem test_shl_flag_wins : seen 0x8F0E (fun s => s.setReg 15 0x41) (fun t => t.reg 15) = some 0 := by decide

/-- V-ALU 61, 66. -/
theorem test_rnd : seen 0xC00F (fun s => { s with rndIn := [0xA7, 0x11] }) (fun t => (t.reg 0, t.rndIn)) = some (7, [0x11]) := by decide
theorem test_rnd_vf : seen 0xCF0F (fun s => { s.setReg 15 0xEE with rndIn := [0x35] }) (fun t => t.reg 15) = some 5 := by decide

/-- V-IDX 3, 6, 12, 14. -/
theorem test_ldI : seen 0xA000 (fun s => s.setI 0x1234) (fun t => t.i) = some 0 := by decide
theorem test_addI_wraps : seen 0xF01E (fun s => ((s.setI 0xFFFF).setReg 0 2).setReg 15 7) (fun t => (t.i, t.reg 15))
    = some (1, 7) := by decide
theorem test_ldF : seen 0xFA29 (fun s => s.setReg 0xA 0xA) (fun t => t.i) = some 0x0082 := by decide
theorem test_ldF_unmasked : seen 0xF029 (fun s => s.setReg 0 0xFF) (fun t => t.i) = some 0x054B := by decide

/-- V-MEM 1, 4. -/
theorem test_ldB_last : seen 0xF033 (fun s => (s.setReg 0 0x9C).setI 0x0FFD)
    (fun t => (t.ram.read 0xFFD, t.ram.read 0xFFE, t.ram.read 0xFFF, t.pc)) = some (1, 5, 6, 0x0202) := by decide
theorem test_ldB_no_wrap : seen 0xF033 (fun s => (s.setReg 0 0x9C).setI 0xFFFF) (fun t => (t.fault, t.faultInfo, t.pc))
    = some (2, some 65535, 0x0200) := by decide

/-- V-MEM 7, 13. -/
theorem test_storeRegs : seen 0xF355 (fun s => ((((s.setI 0x300).setReg 0 0x10).setReg 1 0x11).setReg 2 0x12).setReg 3 0x13)
    (fun t => (t.ram.read 0x2FF, t.ram.read 0x300, t.ram.read 0x303, t.ram.read 0x304, t.i))
    = some (0, 0x10, 0x13, 0, 0x300) := by decide
theorem test_storeRegs_out : seen 0xF155 (fun s => (s.setI 0x0FFF).setReg 0 0x10) (fun t => (t.fault, t.faultInfo, t.ram.read 0xFFF))
    = some (2, some 4096, 0) := by decide

/-- V-MEM 14, 17. -/
theorem test_loadRegs : seen 0xF265 (fun s => ((s.setI 0x300).setReg 3 0x77).setRam (s.ram.writeAll 0x300 [0xAA, 0xBB, 0xCC, 0xDD]))
    (fun t => (t.reg 0, t.reg 2, t.reg 3)) = some (0xAA, 0xCC, 0x77) := by decide
theorem test_loadRegs_out : seen 0xF165 (fun s => ((s.setI 0x0FFF).setReg 0 9).setReg 1 8) (fun t => (t.fault, t.reg 0, t.reg 1))
    = some (2, 9, 8) := by decide

/-- V-DRW 16. -/
theorem test_cls : seen 0x00E0 (fun s => (s.setFb (s.fb.xorPixel 31 63 true)).setReg 15 1) (fun t => (t.fb.pixel 31 63, t.reg 15))
    = some (false, 1) := by decide

/-- V-DRW 2, 7. -/
theorem test_drw_wraps : seen 0xD011 (fun s => (((s.setI 0x300).setReg 0 0x3F).setReg 1 0x1F).setRam (s.ram.writeAll 0x300 [0xC0]))
    (fun t => (t.fb.pixel 31 63, t.fb.pixel 31 0, t.fb.pixel 0 0, t.reg 15)) = some (true, true, false, 0) := by decide
theorem test_drw_zero_bit : seen 0xD011 (fun s => ((s.setI 0x300).setFb (s.fb.xorPixel 0 0 true)).setRam (s.ram.writeAll 0x300 [0x70]))
    (fun t => (t.fb.pixel 0 0, t.fb.pixel 0 1, t.reg 15)) = some (true, true, 0) := by decide

/-- V-KEY 4, 6, 10, 11. -/
theorem test_skp_no_key : seen 0xE09E id (fun t => t.pc) = some 0x0204 := by decide
theorem test_skp_not_masked : seen 0xE09E (fun s => (s.setReg 0 0x17).setKey 7) (fun t => t.pc) = some 0x0202 := by decide
theorem test_sknp : seen 0xE0A1 (fun s => (s.setReg 0 7).setKey 8) (fun t => t.pc) = some 0x0204 := by decide
theorem test_sknp_no_key : seen 0xE0A1 id (fun t => t.pc) = some 0x0202 := by decide

/-- V-KEY 15, 16, the key written by the host in the gap before the step. -/
theorem test_ldVxK_waits : seen 0xF30A (fun s => { s.setReg 3 0x99 with dt := 5, turns := [⟨none, true⟩] })
    (fun t => (t.pc, t.reg 3, t.dt)) = some (0x0200, 0x99, 4) := by decide
theorem test_ldVxK_takes : seen 0xF30A (fun s => { s with dt := 4, turns := [⟨some 0xB, true⟩] }) (fun t => (t.pc, t.reg 3, t.dt))
    = some (0x0202, 0x0B, 3) := by decide

/-- V-TMR 7, 8. -/
theorem test_ldVxDT : seen 0xF107 (fun s => { s with dt := 0x33, turns := [⟨none, true⟩] }) (fun t => (t.reg 1, t.dt))
    = some (0x33, 0x32) := by decide

/-- V-TMR 1, 2. -/
theorem test_ldDTVx : seen 0xF015 (fun s => s.setReg 0 0x0A) (fun t => t.dt) = some 0x0A := by decide
theorem test_ldDTVx_tick : seen 0xF015 (fun s => { s.setReg 0 0x0A with turns := [] }) (fun t => t.dt) = some 0x09 := by decide

/-- V-TMR 6. -/
theorem test_ldSTVx : seen 0xF018 (fun s => { s.setReg 0 0xFF with turns := [] }) (fun t => t.st) = some 0xFE := by decide

/-! ### Faults and the host -/

/-- S11 and V-TMR 10: no tick on a faulting step. -/
theorem test_illegal_word : seen 0x5001 (fun s => { s with dt := 3, turns := [⟨none, true⟩] })
    (fun t => (t.fault, t.faultInfo, t.pc, t.dt)) = some (1, some 0x5001, 0x0200, 3) := by decide

/-- V-FLOW 4, the second step. -/
theorem test_fetch_at_0xFFF : seen 0x1200 (fun s => s.setPc 0x0FFF) (fun t => (t.fault, t.faultInfo, t.pc))
    = some (2, some 4096, 0x0FFF) := by decide

/-- V-FAULT 9: after a fault the host writes the latch, and nothing else changes. -/
theorem test_halted_key : seen 0x6001 (fun s => { raise .stackUnderflow s with turns := [⟨some 5, true⟩] })
    (fun t => (t.key, t.fault, t.pc, t.reg 0)) = some (5, 4, 0x0200, 0) := by decide

/-- V-FAULT 1: the empty ROM. -/
theorem test_empty_rom : (after (step (boot .standard (.bytes [])))).map (fun t => (t.fault, t.faultInfo, t.pc))
    = some (1, some 0, 0x0200) := by decide +kernel

/-- V-FAULT 7. -/
theorem test_rom_too_large : ((loadRom (.bytes (List.replicate 3585 0)) State.reset).fault,
    (loadRom (.bytes (List.replicate 3585 0)) State.reset).faultInfo) = (5, some 3585) := by
  rw [loadRom_of_gt (by rw [List.length_replicate]; decide), List.length_replicate]; decide

/-- R132: a font of the host's own, its first and last byte at `FONT_BASE` and `FONT_BASE + 79`, zero beside them. -/
theorem test_font_of_the_host : (let t := boot (.bytes (Vector.ofFn fun k => 0xA0 + BitVec.ofNat 8 k.val)) (.bytes [0x12, 0x00])
    (t.ram.read 0x04F, t.ram.read 0x050, t.ram.read 0x09F, t.ram.read 0x0A0, t.ram.read 0x200))
    = (0, 0xA0, 0xEF, 0, 0x12) := by decide +kernel

/-- R111, R132: a font that cannot be read ends the boot with `IOError`, no font and no ROM in memory. -/
theorem test_font_unreadable : (let t := boot .unreadable (.bytes [0x12])
    (t.fault, t.faultInfo, t.ram.read 0x050, t.ram.read 0x200)) = (6, none, 0, 0) := by decide

/-- U31: a font of another length is turned away. -/
theorem test_font_length : FontSource.ofBytes (Config.fontTable.drop 1) = none
    ∧ FontSource.ofBytes Config.fontTable = some .standard := by decide

/-- R133: glyph 3 stands at `0x05F`; R22: the host's read port. -/
theorem test_font : (State.reset.ram.read 0x05F, State.reset.ram.read 0x060, State.reset.ram.read 0x0A0) = (0xF0, 0x10, 0) := by decide
theorem test_fb_port : State.fbRead { State.reset with fb := State.reset.fb.xorPixel 3 63 true } 3 63 = true := by decide

/-- The table word as the host numbers it. -/
theorem test_table_word : decodeTableWord 16 0x8AB4 = some (.addReg 0xA 0xB) ∧ decodeTableWord 16 0x8AB8 = none := by decide

/-! ### Witnesses: the hypotheses of each statement can be met, at the boundary of each clause -/

theorem witness_BootCopiesTheRom : ∃ rom : List Byte, rom.length = 3584 ∧ rom.length ≤ 3584 :=
  ⟨List.replicate 3584 0, by rw [List.length_replicate]; decide⟩

theorem witness_BootCopiesTheFont : (0x04F < 0x200 ∧ ¬ (Config.fontBase ≤ 0x04F ∧ 0x04F < Config.fontBase + 80))
    ∧ (0x0A0 < 0x200 ∧ ¬ (Config.fontBase ≤ 0x0A0 ∧ 0x0A0 < Config.fontBase + 80))
    ∧ Config.fontTable.length = 80 ∧ (Config.fontTable.drop 1).length ≠ 80 := by decide

theorem witness_FailedLoadNeverSteps : (∃ bytes rom, FontSource.standard = .bytes bytes
      ∧ RomSource.bytes (List.replicate 3585 0) = .bytes rom ∧ rom.length > 3584
      ∧ FaultCause.romTooLarge 3585 = .romTooLarge rom.length)
    ∧ ((FontSource.unreadable = .unreadable ∨ RomSource.bytes [] = .unreadable) ∧ FaultCause.ioError = .ioError)
    ∧ (FontSource.standard = .unreadable ∨ RomSource.unreadable = .unreadable) :=
  ⟨⟨_, List.replicate 3585 0, rfl, rfl, by rw [List.length_replicate]; decide, by rw [List.length_replicate]⟩,
    ⟨.inl rfl, rfl⟩, .inr rfl⟩

theorem witness_EncodeAfterDecode : decode 0xDFFF = .instr (.drw 0xF 0xF 0xF) := by decide

theorem witness_LegalWordsSelectOneRow : (0x00EE : Word) &&& (opcodeTable[1]).mask = (opcodeTable[1]).pattern := by decide

theorem witness_FetchReadsTwoBytesBigEndian : (State.reset.setPc 0x0FFE).pc.toNat < 0xFFF ∧ 0xFFF ≤ (State.reset.setPc 0x0FFF).pc.toNat := by
  decide

/-- A running state that fetches `w` at `0x200`. -/
theorem ready_running (w : Nat) : (ready w id).running := rfl

theorem witness_StepRunsTheDecodedInstruction : (ready 0x60AB id).running ∧ (ready 0x60AB id).fetches (.ldImm 0 0xAB)
    ∧ (ready 0x60AB id).turn.tick = false ∧ State.reset.turn.tick = true
    ∧ (∃ u, exec (.ldImm 0 0xAB) (ready 0x60AB id).afterTurn = .next u ∧ u.running) :=
  ⟨rfl, ⟨by decide, by decide⟩, rfl, rfl, _, rfl, rfl⟩

/-- The third clause of the same statement: the instruction faults. -/
theorem witness_StepRunsTheDecodedInstruction_fault : (ready 0x00EE id).running ∧ (ready 0x00EE id).fetches .ret
    ∧ ∃ u, exec .ret (ready 0x00EE id).afterTurn = .next u ∧ ¬ u.running :=
  ⟨rfl, ⟨by decide, by decide⟩, _, rfl, raise_not_running _ _⟩

theorem witness_HostTurnWritesOnlyTheLatch : ({ State.reset with turns := [⟨some 0xF, true⟩] } : State).turn.key = some 0xF
    ∧ State.reset.turn.key = none := ⟨rfl, rfl⟩

theorem witness_FetchOutsideMemoryFaults : (State.reset.setPc 0x0FFF).running ∧ 0xFFF ≤ (State.reset.setPc 0x0FFF).pc.toNat :=
  ⟨rfl, by decide⟩

theorem witness_IllegalWordFaults : State.reset.running ∧ State.reset.pc.toNat + 1 < 4096
    ∧ (0 : Word) = wordOfBytes (State.reset.ram.read State.reset.pc.toNat) (State.reset.ram.read (State.reset.pc.toNat + 1))
    ∧ decode 0 = .illegalOpcode 0 := ⟨rfl, by decide, by decide, by decide⟩

theorem witness_HaltedForGood : ¬ (raise .ioError State.reset).running := raise_not_running _ _

theorem witness_FaultingStepIsPrecise : State.reset.running ∧ ∃ t, step State.reset = .next t ∧ ¬ t.running :=
  ⟨rfl, raise (.illegalOpcode 0) State.reset, rfl, raise_not_running _ _⟩

theorem witness_OnlyListedInstructionsFault : State.reset.running ∧ ∃ t, exec .ret State.reset = .next t ∧ ¬ t.running :=
  ⟨rfl, _, rfl, raise_not_running _ _⟩

theorem witness_OnlyListedInstructionsFault_range : (State.reset.setI 0x0FFE).running
    ∧ ∃ t, exec (.ldB 0) (State.reset.setI 0x0FFE) = .next t ∧ ¬ t.running :=
  ⟨rfl, _, storeAtI_of_gt (s := State.reset.setI 0x0FFE) (bs := decimalDigits ((State.reset.setI 0x0FFE).reg 0)) (by simp [decimalDigits]) (by decide),
    raise_not_running _ _⟩

theorem witness_OnlyListedInstructionsFault_call : ({ State.reset with sp := 16 } : State).running
    ∧ ∃ t, exec (.call 0x300) { State.reset with sp := 16 } = .next t ∧ ¬ t.running :=
  ⟨rfl, _, rfl, raise_not_running _ _⟩

theorem witness_OnlyListedInstructionsFault_load : (State.reset.setI 0x0FFF).running
    ∧ ∃ t, exec (.loadRegs 1) (State.reset.setI 0x0FFF) = .next t ∧ ¬ t.running :=
  ⟨rfl, _, execLoadRegs_of_ge (by decide), raise_not_running _ _⟩

theorem witness_OnlyListedInstructionsFault_draw : (State.reset.setI 0x1000).running
    ∧ ∃ t, exec (.drw 0 1 1) (State.reset.setI 0x1000) = .next t ∧ ¬ t.running :=
  ⟨rfl, _, execDrw_of_gt (by decide) (by decide), raise_not_running _ _⟩

theorem witness_ProgramCounterTable : State.reset.running ∧ ∃ t, exec (.jp 0xFFF) State.reset = .next t ∧ t.running :=
  ⟨rfl, _, rfl, rfl⟩

theorem witness_TimerWriteComesBeforeTheTick : (ready 0xF015 id).running ∧ (ready 0xF015 id).fetches (.ldDTVx 0)
    ∧ (ready 0xF018 id).fetches (.ldSTVx 0) ∧ (ready 0xF107 id).fetches (.ldVxDT 1) :=
  ⟨rfl, ⟨by decide, by decide⟩, ⟨by decide, by decide⟩, by decide, by decide⟩

theorem witness_ReturnPopsTheStack : State.reset.sp = 0 ∧ (1 ≤ ({ State.reset with sp := 1 } : State).sp.toNat)
    ∧ ({ State.reset with sp := 16 } : State).sp.toNat ≤ 16 := by decide

theorem witness_CallPushesTheReturnAddress : ({ State.reset with sp := 16 } : State).sp = 16
    ∧ ({ State.reset with sp := 15 } : State).sp.toNat < 16 := by decide

theorem witness_StackPointerOutOfRangeStops : 16 < ({ State.reset with sp := 17 } : State).sp.toNat := by decide

theorem witness_CallThenReturn : State.reset.sp.toNat < 16 ∧ ∃ t, exec (.call 0x300) State.reset = .next t
    ∧ SameBut [.v, .i, .pc, .dt, .st, .ram, .fb, .key, .fault, .info, .turns, .rnd] t t :=
  ⟨by decide, _, execCall_of_lt 0x300 (by decide), sameBut_refl _ _⟩

theorem witness_SeventeenthCallOverflows : State.reset.sp = 0 ∧ (List.replicate 16 (0x200 : Addr12)).length = 16 := by decide

/-- The instructions that access `ram` at `I`: `I` at the last address that works and at the first that does not. -/
theorem witness_DecimalDigitsAreStored : State.reset.ram.wf = true ∧ (State.reset.setI 0x0FFD).i.toNat + 2 < 4096
    ∧ 4096 ≤ (State.reset.setI 0x0FFE).i.toNat + 2 := by decide

theorem witness_RegistersAreStored : State.reset.ram.wf = true ∧ (State.reset.setI 0x0FF0).i.toNat + (15 : Reg).val < 4096
    ∧ 4096 ≤ (State.reset.setI 0x0FF1).i.toNat + (15 : Reg).val := by decide

theorem witness_RegistersAreLoaded : State.reset.ram.wf = true ∧ (State.reset.setI 0x0FFF).i.toNat + (0 : Reg).val < 4096
    ∧ 4096 ≤ (State.reset.setI 0x0FFF).i.toNat + (1 : Reg).val := by decide

theorem witness_StoreIsSeenByTheNextFetch : (State.reset.setI 0x202).ram.wf = true
    ∧ (State.reset.setI 0x202).i.toNat + (1 : Reg).val < 4096 ∧ (0 : Reg) < 1
    ∧ ∃ t, exec (.storeRegs 1) (State.reset.setI 0x202) = .next t ∧ t.pc.toNat = (State.reset.setI 0x202).i.toNat + (0 : Reg).val :=
  ⟨rfl, by decide, by decide, _, rfl, by decide⟩

theorem witness_CanonicalMemoryIsUnique : Memory.wf [(0x300, 5)] = true ∧ Memory.wf [(0xFFF, 1)] = true := by decide

theorem witness_DrawXorsTheSprite : ((15 : Nibble) = 0 ∨ (State.reset.setI 0x0FF1).i.toNat + (15 : Nibble).toNat ≤ 4096)
    ∧ (15 : Nibble) ≠ 0 ∧ 4096 < (State.reset.setI 0x0FF2).i.toNat + (15 : Nibble).toNat := by decide

theorem witness_DrawingTwiceRestoresTheScreen : ∃ t, exec (.drw 0 1 5) State.reset = .next t
    ∧ ((5 : Nibble) = 0 ∨ State.reset.i.toNat + (5 : Nibble).toNat ≤ 4096)
    ∧ t.fb = t.fb ∧ t.ram = State.reset.ram ∧ t.i = State.reset.i ∧ t.reg 0 = State.reset.reg 0 ∧ t.reg 1 = State.reset.reg 1 :=
  ⟨_, execDrw_of_le (.inr (by decide)), .inr (by decide), rfl, rfl, rfl, setReg_reg_other _ _ _ _ (by decide),
    setReg_reg_other _ _ _ _ (by decide)⟩

theorem witness_WaitForKey : State.reset.key = 0 ∧ (State.reset.setKey 0xF).key ≠ 0 := by decide

/-- The third clause of the same statement: a waiting step. -/
theorem witness_WaitForKey_step : (ready 0xFF0A id).running ∧ (ready 0xFF0A id).fetches (.ldVxK 15)
    ∧ (ready 0xFF0A id).afterTurn.key = 0 := ⟨rfl, ⟨by decide, by decide⟩, rfl⟩

theorem witness_EveryInstructionKeepsItsFrame : ∃ t, exec .cls State.reset = .next t := ⟨_, rfl⟩

theorem witness_OnlyTheirInstructionsWrite : ∃ t, step (ready 0x2300 id) = .next t ∧ t.sp ≠ (ready 0x2300 id).sp :=
  ⟨((ready 0x2300 id).afterTurn.push 0x202 (by decide)).setPc 0x300, rfl, by decide⟩

/-- The other clauses of the same statement: `I` and the framebuffer change; the latch, which the host writes. -/
theorem witness_OnlyTheirInstructionsWrite_index : seen 0xA300 id (fun t => t.i) = some 0x300
    ∧ (ready 0xA300 id).i = 0 := by decide
theorem witness_OnlyTheirInstructionsWrite_screen : seen 0xD011 (fun s => s.setI 0x050) (fun t => t.fb.pixel 0 0) = some true
    ∧ (ready 0xD011 id).fb.pixel 0 0 = false := by decide
theorem witness_OnlyTheirInstructionsWrite_memory : seen 0xF055 (fun s => (s.setI 0x300).setReg 0 7) (fun t => t.ram.read 0x300)
    = some 7 ∧ (ready 0xF055 id).ram.read 0x300 = 0 := by decide

theorem witness_invariant : State.reset.Inv :=
  ⟨by decide, by decide, by decide, by intro k; simp [State.reset], by decide, rfl⟩

theorem witness_EveryStepKeepsTheInvariant : State.reset.Inv ∧ ∃ t, step State.reset = .next t :=
  ⟨witness_invariant, raise (.illegalOpcode 0) State.reset, rfl⟩

theorem witness_DeadStackEntriesAreUnobservable : State.reset.sp.toNat ≤ 16
    ∧ (∀ k : Fin 16, k.val < State.reset.sp.toNat → (State.reset.stack.set 0 0x456)[k] = State.reset.stack[k])
    ∧ ∃ t, step State.reset = .next t :=
  ⟨by decide, by intro k h; exact absurd h (by simp [State.reset]), raise (.illegalOpcode 0) State.reset, rfl⟩

theorem witness_EveryStepCompletes : (ready 0x1200 id).running ∧ State.reset.Inv := ⟨rfl, witness_invariant⟩

theorem witness_SoundTimerIsUnobservable : ∃ t, step (ready 0xF018 id) = .next t := ⟨_, rfl⟩

theorem witness_SelfJumpIsStable : (ready 0x1200 id).atSelfJump := ⟨rfl, 0x200, ⟨by decide, by decide⟩, by decide⟩

end Sys2Proof.Tests
end

section
/-! PROOFS. The statements of spec/00_scope.md: the host's turn, the font at boot, the frame of every instruction, the
invariant along every run. -/

namespace Sys2Proof.Machine

/-! ## The host's turn (spec/00_scope.md R5) -/

theorem afterTurn_sameBut (s : State) : SameBut [.key, .turns] s s.afterTurn := by
  intro p hp
  cases p with
  | key | turns => simp at hp
  | _ => simp [Part.Same]

/-- Settles O11: the turn leaves every part but the latch and the schedule, and a 4-bit code is not cut by the latch. -/
theorem hostTurnWritesOnlyTheLatch : Obligations.HostTurnWritesOnlyTheLatch := by
  intro s
  refine ⟨afterTurn_sameBut s, fun code hcode => ?_, fun hnone => ?_⟩
  · have hlatch : s.afterTurn.key = code.setWidth 8 := by rw [afterTurn_key, hcode]
    rw [hlatch, BitVec.toNat_setWidth_of_le (by decide)]
  · rw [afterTurn_key, hnone]

/-! ## The font at boot (spec/70_reset_and_hazards.md R132) -/

theorem boot_bytes_read_low (font : Font) (src : RomSource) {a : Nat} (h : a < 0x200) :
    (boot (.bytes font) src).ram.read a = (loadFont font).ram.read a :=
  loadRom_read_low src (loadFont font) h

theorem boot_unreadable_read (src : RomSource) (a : Nat) : (boot .unreadable src).ram.read a = 0 :=
  clearedRam_read a

theorem ofBytes_of_length {bytes : List Byte} (h : bytes.length = 80) :
    ∃ font : Font, FontSource.ofBytes bytes = some (.bytes font) ∧ font.toList = bytes := by
  have hwf : WellFormed.font bytes = true := by simpa [WellFormed.font] using h
  exact ⟨⟨bytes.toArray, by simpa using h⟩, dif_pos hwf, rfl⟩

theorem ofBytes_of_length_ne {bytes : List Byte} (h : bytes.length ≠ 80) : FontSource.ofBytes bytes = none := by
  have hwf : ¬ WellFormed.font bytes = true := by simpa [WellFormed.font] using h
  exact dif_neg hwf

/-- A canonical memory lists a cell only where it differs from the reset contents. -/
theorem eq_nil_of_read_resetByte {m : Memory} (hm : m.wf = true) (h : ∀ a, m.read a = Config.resetByte a) : m = [] := by
  cases m with
  | nil => rfl
  | cons kb m =>
    obtain ⟨k, b⟩ := kb
    simp only [Memory.wf, Memory.wfFrom, Bool.and_eq_true, bne_iff_ne] at hm
    obtain ⟨⟨_, hne⟩, _⟩ := hm
    have hread : b = Config.resetByte k := by simpa [Memory.read] using h k
    exact absurd hread hne

/-- The reset contents hold `FONT_TABLE` at `FONT_BASE` (R131). -/
theorem resetByte_font (k : Fin 80) : Config.resetByte (Config.fontBase + k.val) = Config.fontTable[k]'(k.isLt) := by
  have hin : Config.fontBase ≤ Config.fontBase + k.val ∧ Config.fontBase + k.val < Config.fontBase + Config.fontLen :=
    ⟨by omega, by simp only [Config.fontLen]; omega⟩
  rw [Config.resetByte, if_pos hin, Nat.add_sub_cancel_left]
  exact (List.getElem_eq_getD 0).symm

/-- The parameter `FONT_TABLE`, copied to `FONT_BASE`, leaves memory at the reset contents. -/
theorem loadFont_standard_ram : (loadFont ⟨Config.fontTable.toArray, rfl⟩).ram = [] := by
  refine eq_nil_of_read_resetByte (loadFont_wf _) fun a => ?_
  by_cases h : Config.fontBase ≤ a ∧ a < Config.fontBase + 80
  · obtain ⟨k, rfl⟩ := Nat.exists_eq_add_of_le h.1
    have hk : k < 80 := by omega
    rw [loadFont_read_inside _ ⟨k, hk⟩, resetByte_font ⟨k, hk⟩]
    rfl
  · rw [loadFont_read_outside _ h, resetByte_outside h]

/-- With the empty ROM the boot ends with the font copied. -/
theorem boot_empty_rom (font : Font) : boot (.bytes font) (.bytes []) = State.reset.setRam (loadFont font).ram :=
  loadRom_of_le (rom := []) (Nat.zero_le 3584) (loadFont font)

theorem boot_standard_empty_rom : boot .standard (.bytes []) = State.reset := by
  rw [FontSource.standard, boot_empty_rom, loadFont_standard_ram]
  rfl

/-- Settles O55: no ROM source touches the low memory, so it is what the font copy left; an offered font is taken by its
length; and `FONT_TABLE` leaves memory at the reset contents. -/
theorem bootCopiesTheFont : Obligations.BootCopiesTheFont := by
  intro src
  refine ⟨fun font k => ?_, fun font a hlow hout => ?_, fun a _ => boot_unreadable_read src a,
    fun bytes => ⟨ofBytes_of_length, ofBytes_of_length_ne⟩, boot_standard_empty_rom⟩
  · have hlow : Config.fontBase + k.val < 0x200 := by have := fontBase_fits; omega
    rw [boot_bytes_read_low font src hlow, loadFont_read_inside]
  · rw [boot_bytes_read_low font src hlow, loadFont_read_outside font hout]

/-! ## Frames (spec/00_scope.md R4) -/

/-! ### The parts each state operation writes -/

theorem sameBut_trans {ps qs : List Part} {s t u : State} (h : SameBut ps s t) (h' : SameBut qs t u) :
    SameBut (ps ++ qs) s u := by
  intro p hp
  rw [List.mem_append, not_or] at hp
  have hst := h p hp.1
  have htu := h' p hp.2
  cases p with
  | v | stack | ram => exact fun k => (htu k).trans (hst k)
  | fb => exact fun row col => (htu row col).trans (hst row col)
  | rnd => exact ⟨htu.1.trans hst.1, htu.2.trans hst.2⟩
  | _ => exact Eq.trans htu hst

section
variable (s : State)

theorem setRegs_sameBut (v : Vector Byte 16) : SameBut [.v] s (s.setRegs v) := by
  intro p hp
  cases p with
  | v => simp at hp
  | _ => simp [Part.Same]

theorem setReg_sameBut (x : Reg) (b : Byte) : SameBut [.v] s (s.setReg x b) := setRegs_sameBut s _

theorem setI_sameBut (w : Word) : SameBut [.i] s (s.setI w) := by
  intro p hp
  cases p with
  | i => simp at hp
  | _ => simp [Part.Same]

theorem setPc_sameBut (w : Word) : SameBut [.pc] s (s.setPc w) := by
  intro p hp
  cases p with
  | pc => simp at hp
  | _ => simp [Part.Same]

theorem setDt_sameBut (b : Byte) : SameBut [.dt] s (s.setDt b) := by
  intro p hp
  cases p with
  | dt => simp at hp
  | _ => simp [Part.Same]

theorem setSt_sameBut (b : Byte) : SameBut [.st] s (s.setSt b) := by
  intro p hp
  cases p with
  | st => simp at hp
  | _ => simp [Part.Same]

theorem setRam_sameBut (m : Memory) : SameBut [.ram] s (s.setRam m) := by
  intro p hp
  cases p with
  | ram => simp at hp
  | _ => simp [Part.Same]

theorem setFb_sameBut (fb : Framebuffer) : SameBut [.fb] s (s.setFb fb) := by
  intro p hp
  cases p with
  | fb => simp at hp
  | _ => simp [Part.Same]

theorem push_sameBut (w : Word) (h : s.sp.toNat < 16) : SameBut [.sp, .stack] s (s.push w h) := by
  intro p hp
  cases p with
  | sp | stack => simp at hp
  | _ => simp [Part.Same]

theorem drop_sameBut : SameBut [.sp] s s.drop := by
  intro p hp
  cases p with
  | sp => simp at hp
  | _ => simp [Part.Same]

theorem consumeRnd_sameBut : SameBut [.rnd] s s.consumeRnd := by
  intro p hp
  cases p with
  | rnd => simp at hp
  | _ => simp [Part.Same]

end

/-! ### What the instructions with more than one outcome can answer -/

theorem execRet_cases {s t : State} (h : execRet s = .next t) :
    (s.sp = 0 ∧ t = raise .stackUnderflow s) ∨ (s.sp ≠ 0 ∧ ∃ hlt, t = s.drop.setPc (s.top hlt)) := by
  unfold execRet at h
  split at h
  · next h0 => exact .inl ⟨h0, (Host.Outcome.next.inj h).symm⟩
  · next h0 =>
    split at h
    · next hlt => exact .inr ⟨h0, hlt, (Host.Outcome.next.inj h).symm⟩
    · cases h

theorem execCall_cases {nnn : Addr12} {s t : State} (h : execCall nnn s = .next t) :
    (s.sp = 16 ∧ t = raise .stackOverflow s) ∨ (∃ hlt, t = (s.push (s.pc + 2) hlt).setPc (addrOf nnn)) := by
  unfold execCall at h
  split at h
  · next h16 => exact .inl ⟨h16, (Host.Outcome.next.inj h).symm⟩
  · split at h
    · next hlt => exact .inr ⟨hlt, (Host.Outcome.next.inj h).symm⟩
    · cases h

theorem execDrw_cases {x y : Reg} {n : Nibble} {s t : State} (h : execDrw x y n s = .next t) :
    (inRange s.base n.toNat = true
      ∧ t = ((s.setFb (s.drawn x y n).fb).setReg regF (flagByte (s.drawn x y n).hit)).advance)
    ∨ (inRange s.base n.toNat = false ∧ t = raise (rangeFault s.base) s) := by
  unfold execDrw at h
  split at h
  · next hin => exact .inl ⟨hin, (Host.Outcome.next.inj h).symm⟩
  · next hout => exact .inr ⟨by simpa using hout, (Host.Outcome.next.inj h).symm⟩

theorem execLoadRegs_cases {x : Reg} {s t : State} (h : execLoadRegs x s = .next t) :
    (inRange s.base (rangeLen x) = true ∧ t = (s.setRegs (s.loadedRange x)).advance)
    ∨ (inRange s.base (rangeLen x) = false ∧ t = raise (rangeFault s.base) s) := by
  unfold execLoadRegs at h
  split at h
  · next hin => exact .inl ⟨hin, (Host.Outcome.next.inj h).symm⟩
  · next hout => exact .inr ⟨by simpa using hout, (Host.Outcome.next.inj h).symm⟩

theorem execLdVxK_cases {x : Reg} {s t : State} (h : execLdVxK x s = .next t) :
    (s.key = 0 ∧ t = s) ∨ (s.key ≠ 0 ∧ t = (s.setReg x s.key).advance) := by
  unfold execLdVxK at h
  split at h
  · next h0 => exact .inl ⟨h0, (Host.Outcome.next.inj h).symm⟩
  · next h0 => exact .inr ⟨h0, (Host.Outcome.next.inj h).symm⟩

/-! ### The frame of an instruction -/

/-- From `s` to `t` only the parts `ps`, of the registers only `rs`, and of memory only the `n` bytes from `I` change. -/
structure Frame (ps : List Part) (rs : List Reg) (n : Nat) (s t : State) : Prop where
  parts : SameBut ps s t
  regs : SameRegsBut rs s t
  bytes : SameBytesBut s.i.toNat n s t

section
variable {ps qs : List Part} {rs : List Reg} {n : Nat} {s t u : State}

/-- Where neither the register file nor memory is a written part, no register and no byte is. -/
theorem frame_of_parts (h : SameBut ps s t) (hv : .v ∉ ps := by decide) (hram : .ram ∉ ps := by decide) :
    Frame ps rs n s t :=
  ⟨h, fun r _ => h .v hv r, fun a _ => h .ram hram a⟩

theorem Frame.mono (h : Frame ps rs n s t) (hs : ∀ p ∈ ps, p ∈ qs) : Frame qs rs n s t :=
  { h with parts := sameBut_mono h.parts hs }

/-- A frame followed by a change of other parts. -/
theorem Frame.andThen (h : Frame ps rs n s t) (h' : SameBut qs t u) (hv : .v ∉ qs := by decide)
    (hram : .ram ∉ qs := by decide) : Frame (ps ++ qs) rs n s u :=
  ⟨sameBut_trans h.parts h', fun r hr => (h' .v hv r).trans (h.regs r hr),
    fun a ha => (h' .ram hram a).trans (h.bytes a ha)⟩

theorem setPc_frame (w : Word) : Frame [.pc] rs n s (s.setPc w) := frame_of_parts (setPc_sameBut s w)

theorem Frame.advance (h : Frame ps rs n s t) : Frame (ps ++ [.pc]) rs n s t.advance :=
  h.andThen (setPc_sameBut t _)

theorem raise_frame (c : FaultCause) (hf : .fault ∈ ps) (hi : .info ∈ ps) : Frame ps rs n s (raise c s) := by
  obtain ⟨_, _, hsame⟩ := raise_tookFault c s
  have hraise : Frame [.fault, .info] rs n s (raise c s) := frame_of_parts hsame
  exact hraise.mono (by simp [hf, hi])

theorem setReg_frame (x : Reg) (b : Byte) : Frame [.v] [x] 0 s (s.setReg x b) where
  parts := setReg_sameBut s x b
  regs := fun r hr => setReg_reg_other s x r b (by simpa using hr)
  bytes := fun _ _ => rfl

theorem setResultFlag_frame (x : Reg) (b : Byte) (f : Bool) : Frame [.v] [x, regF] 0 s (s.setResultFlag x b f) where
  parts := sameBut_mono (sameBut_trans (setReg_sameBut s x b) (setReg_sameBut _ regF (flagByte f))) (by simp)
  regs := by
    intro r hr
    rw [List.mem_cons, List.mem_singleton, not_or] at hr
    rw [setResultFlag_eq, setReg_reg_other _ _ _ _ hr.2, setReg_reg_other _ _ _ _ hr.1]
  bytes := fun _ _ => rfl

theorem execRet_frame (h : execRet s = .next t) : Frame [.sp, .pc, .fault, .info] rs n s t := by
  rcases execRet_cases h with ⟨_, rfl⟩ | ⟨_, hlt, rfl⟩
  · exact raise_frame _ (by decide) (by decide)
  · have hpop : Frame [.sp, .pc] rs n s (s.drop.setPc (s.top hlt)) :=
      (frame_of_parts (drop_sameBut s)).andThen (setPc_sameBut _ _)
    exact hpop.mono (by decide)

theorem execCall_frame {nnn : Addr12} (h : execCall nnn s = .next t) :
    Frame [.sp, .stack, .pc, .fault, .info] rs n s t := by
  rcases execCall_cases h with ⟨_, rfl⟩ | ⟨hlt, rfl⟩
  · exact raise_frame _ (by decide) (by decide)
  · have hpush : Frame [.sp, .stack, .pc] rs n s ((s.push (s.pc + 2) hlt).setPc (addrOf nnn)) :=
      (frame_of_parts (push_sameBut s _ hlt)).andThen (setPc_sameBut _ _)
    exact hpush.mono (by decide)

/-- The screen and one register written: in either order the same state. -/
theorem setFb_setReg_frame (fb : Framebuffer) (x : Reg) (b : Byte) :
    Frame [.v, .fb] [x] 0 s ((s.setFb fb).setReg x b) :=
  (setReg_frame x b).andThen (setFb_sameBut (s.setReg x b) fb)

theorem execDrw_frame {x y : Reg} {k : Nibble} (h : execDrw x y k s = .next t) :
    Frame [.fb, .v, .pc, .fault, .info] [regF] 0 s t := by
  rcases execDrw_cases h with ⟨_, rfl⟩ | ⟨_, rfl⟩
  · exact (setFb_setReg_frame _ regF _).advance.mono (by decide)
  · exact raise_frame _ (by decide) (by decide)

/-- The registers above `x` are not loaded (R97). -/
theorem loadedRange_sameRegsBut (x : Reg) : SameRegsBut (regsWritten (.loadRegs x)) s (s.setRegs (s.loadedRange x)) := by
  intro r hr
  have hgt : ¬ r ≤ x := by simpa [regsWritten] using hr
  rw [setRegs_reg, loadedRange_getElem, if_neg hgt]

theorem setRegs_frame {v : Vector Byte 16} (h : SameRegsBut rs s (s.setRegs v)) : Frame [.v] rs 0 s (s.setRegs v) :=
  ⟨setRegs_sameBut s v, h, fun _ _ => rfl⟩

theorem execLoadRegs_frame {x : Reg} (h : execLoadRegs x s = .next t) :
    Frame [.v, .pc, .fault, .info] (regsWritten (.loadRegs x)) 0 s t := by
  rcases execLoadRegs_cases h with ⟨_, rfl⟩ | ⟨_, rfl⟩
  · exact (setRegs_frame (loadedRange_sameRegsBut x)).advance.mono (by decide)
  · exact raise_frame _ (by decide) (by decide)

theorem execLdVxK_frame {x : Reg} (h : execLdVxK x s = .next t) : Frame [.v, .pc] [x] 0 s t := by
  rcases execLdVxK_cases h with ⟨_, rfl⟩ | ⟨_, rfl⟩
  · exact ⟨sameBut_refl _ _, fun _ _ => rfl, fun _ _ => rfl⟩
  · exact (setReg_frame x s.key).advance

theorem writeAll_frame (bs : List Byte) : Frame [.ram] rs bs.length s (s.setRam (s.ram.writeAll s.base bs)) where
  parts := setRam_sameBut s _
  regs := fun _ _ => rfl
  bytes := fun a ha => read_writeAll_outside (by simp only [State.base]; omega)

/-- The bytes stored from `I` upward are the only ones a store writes (R36). -/
theorem storeAtI_frame {bs : List Byte} (h : storeAtI bs s = .next t) :
    Frame [.ram, .pc, .fault, .info] rs bs.length s t := by
  rcases storeAtI_cases bs s with ⟨_, e⟩ | ⟨_, e⟩ <;> cases e.symm.trans h
  · exact (writeAll_frame bs).advance.mono (by decide)
  · exact raise_frame _ (by decide) (by decide)

theorem execStoreRegs_frame {x : Reg} (h : execStoreRegs x s = .next t) :
    Frame [.ram, .pc, .fault, .info] rs (x.val + 1) s t := by
  have hstore : Frame [.ram, .pc, .fault, .info] rs (s.regRange x).length s t := storeAtI_frame h
  rwa [regRange_length] at hstore

end

/-- Every instruction changes only what its own rule names. -/
theorem exec_frame (i : Instr) {s t : State} (h : exec i s = .next t) :
    Frame (partsWritten i) (regsWritten i) (bytesStored i) s t :=
  match i, h with
  | .cls, rfl => (frame_of_parts (setFb_sameBut s _)).advance
  | .ret, h => execRet_frame h
  | .call _, h => execCall_frame h
  | .jp _, rfl | .jpV0 _, rfl | .seImm .., rfl | .sneImm .., rfl | .seReg .., rfl | .sneReg .., rfl | .skp _, rfl
  | .sknp _, rfl => setPc_frame _
  | .ldImm .., rfl | .addImm .., rfl | .ldReg .., rfl | .orReg .., rfl | .andReg .., rfl | .xorReg .., rfl
  | .ldVxDT _, rfl => (setReg_frame _ _).advance
  | .addReg .., rfl | .subReg .., rfl | .shr .., rfl | .subnReg .., rfl | .shl .., rfl =>
    (setResultFlag_frame _ _ _).advance
  | .rnd .., rfl => (setReg_frame _ _).advance.andThen (consumeRnd_sameBut _)
  | .ldI _, rfl | .addI _, rfl | .ldF _, rfl => (frame_of_parts (setI_sameBut s _)).advance
  | .ldDTVx _, rfl => (frame_of_parts (setDt_sameBut s _)).advance
  | .ldSTVx _, rfl => (frame_of_parts (setSt_sameBut s _)).advance
  | .ldVxK _, h => execLdVxK_frame h
  | .drw .., h => execDrw_frame h
  | .ldB _, h => storeAtI_frame h
  | .storeRegs _, h => execStoreRegs_frame h
  | .loadRegs _, h => execLoadRegs_frame h

/-- Settles O46: the frame of each instruction, put together from the frames of the operations it is made of. -/
theorem everyInstructionKeepsItsFrame : Obligations.EveryInstructionKeepsItsFrame := by
  intro i s t h
  obtain ⟨hparts, hregs, hbytes⟩ := exec_frame i h
  exact ⟨hparts, hregs, hbytes⟩

/-! ## The invariant (spec/10_state.md R28) -/


/-! ### What each state operation keeps of the invariant -/

theorem reset_inv : State.reset.Inv :=
  ⟨by decide, by decide, by decide, fun k => by simp [State.reset], by decide, reset_ram_wf⟩

section
variable {s : State} (h : s.Inv)
include h

theorem setReg_inv (x : Reg) (b : Byte) : (s.setReg x b).Inv := { h with }
theorem setRegs_inv (v : Vector Byte 16) : (s.setRegs v).Inv := { h with }
theorem setI_inv (w : Word) : (s.setI w).Inv := { h with }
theorem setDt_inv (b : Byte) : (s.setDt b).Inv := { h with }
theorem setSt_inv (b : Byte) : (s.setSt b).Inv := { h with }
theorem setFb_inv (fb : Framebuffer) : (s.setFb fb).Inv := { h with }
theorem consumeRnd_inv : s.consumeRnd.Inv := { h with }
theorem tick_inv : (tick s).Inv := { h with }

theorem setResultFlag_inv (x : Reg) (b : Byte) (f : Bool) : (s.setResultFlag x b f).Inv :=
  setReg_inv (setReg_inv h x b) regF (flagByte f)

/-- The invariant does not look at what the host schedules or injects. -/
theorem withHost_inv (turns : List HostTurn) (rnd : List Byte) : State.Inv { s with turns := turns, rndIn := rnd } :=
  { h with }

theorem setRam_inv {m : Memory} (hm : m.wf = true) : (s.setRam m).Inv := { h with ramWf := hm }

theorem setPc_inv {w : Word} (hw : w.toNat ≤ 0x10FE) : (s.setPc w).Inv := { h with pcLe := hw }

theorem raise_inv (c : FaultCause) : (raise c s).Inv := { h with faultLe := code_le c }

/-- The latch is written through a 4-bit port (R20). -/
theorem afterTurn_inv : s.afterTurn.Inv := by
  have hkey : s.afterTurn.key.toNat ≤ 0x0F := by
    rw [afterTurn_key]
    split
    · next code _ => rw [BitVec.toNat_setWidth]; omega
    · exact h.keyLe
  exact ⟨by simpa using h.spLe, hkey, by simpa using h.pcLe, by simpa using h.stackLe, by simpa using h.faultLe,
    by simpa using h.ramWf⟩

theorem push_inv {w : Word} (hsp : s.sp.toNat < 16) (hw : w.toNat ≤ 0x1000) : (s.push w hsp).Inv := by
  have hle : (s.push w hsp).sp.toNat ≤ 16 := by rw [push_sp]; bv_omega
  have hstack : ∀ k : Fin 16, (s.push w hsp).stack[k].toNat ≤ 0x1000 := by
    intro k
    rw [push_stack, Fin.getElem_fin, Vector.getElem_set]
    split
    · exact hw
    · exact h.stackLe k
  exact { h with spLe := hle, stackLe := hstack }

theorem drop_inv (hsp : s.sp ≠ 0) : s.drop.Inv := by
  have hle : s.drop.sp.toNat ≤ 16 := by have := h.spLe; rw [drop_sp]; bv_omega
  exact { h with spLe := hle }

/-- The instruction at `PC` was fetched, so both its bytes exist and `PC + 2` stays a pushed address (R28). -/
theorem advance_inv (hpc : s.pc.toNat + 1 < 4096) : s.advance.Inv := setPc_inv h (by bv_omega)

/-- Stated for any register file: the unfolding of `loadedRange` is no part of it. -/
theorem setRegs_advance_inv (hpc : s.pc.toNat + 1 < 4096) (v : Vector Byte 16) : (s.setRegs v).advance.Inv :=
  advance_inv (setRegs_inv h v) hpc

theorem skipIf_inv (hpc : s.pc.toNat + 1 < 4096) (c : Bool) : (s.skipIf c).Inv :=
  setPc_inv h (by split <;> bv_omega)

end

theorem addrOf_le (nnn : Addr12) : (addrOf nnn).toNat ≤ 0x10FE := by
  rw [addrOf, BitVec.toNat_setWidth]; omega

section
variable {s : State} (h : s.Inv)
include h

/-! ### Every instruction completes with the invariant -/

theorem execRet_inv : ∃ t, execRet s = .next t ∧ t.Inv := by
  have hle := h.spLe
  by_cases h0 : s.sp = 0
  · exact ⟨_, if_pos h0, raise_inv h .stackUnderflow⟩
  · have hlt : s.sp.toNat - 1 < 16 := by omega
    have htop : (s.top hlt).toNat ≤ 0x10FE := Nat.le_trans (h.stackLe ⟨_, hlt⟩) (by decide)
    exact ⟨_, execRet_of_pos h0 hlt, setPc_inv (drop_inv h h0) htop⟩

theorem execCall_inv (nnn : Addr12) (hpc : s.pc.toNat + 1 < 4096) : ∃ t, execCall nnn s = .next t ∧ t.Inv := by
  have hle := h.spLe
  by_cases h16 : s.sp = 16
  · exact ⟨_, if_pos h16, raise_inv h .stackOverflow⟩
  · have hlt : s.sp.toNat < 16 := by bv_omega
    have hret : (s.pc + 2).toNat ≤ 0x1000 := by bv_omega
    exact ⟨_, execCall_of_lt nnn hlt, setPc_inv (push_inv h hlt hret) (addrOf_le nnn)⟩

/-- The largest target of `Bnnn` is the bound R28 gives `PC`. -/
theorem execJpV0_inv (nnn : Addr12) : ∃ t, execJpV0 nnn s = .next t ∧ t.Inv := by
  have hnnn : (addrOf nnn).toNat ≤ 0x0FFF := by rw [addrOf, BitVec.toNat_setWidth]; omega
  have hv0 : (wordOf (s.reg 0)).toNat ≤ 0xFF := by rw [wordOf, BitVec.toNat_setWidth]; omega
  exact ⟨_, rfl, setPc_inv h (by rw [BitVec.toNat_add]; omega)⟩

theorem storeAtI_inv (bs : List Byte) (hpc : s.pc.toNat + 1 < 4096) : ∃ t, storeAtI bs s = .next t ∧ t.Inv := by
  rcases storeAtI_cases bs s with ⟨hin, e⟩ | ⟨_, e⟩
  · have hm : (s.ram.writeAll s.base bs).wf = true := by
      rcases (inRange_iff _ _).mp hin with h0 | hle
      · rw [List.eq_nil_of_length_eq_zero h0]; exact h.ramWf
      · exact writeAll_wf h.ramWf hle
    exact ⟨_, e, advance_inv (setRam_inv h hm) hpc⟩
  · exact ⟨_, e, raise_inv h (rangeFault s.base)⟩

theorem execDrw_inv (x y : Reg) (n : Nibble) (hpc : s.pc.toNat + 1 < 4096) :
    ∃ t, execDrw x y n s = .next t ∧ t.Inv := by
  by_cases hin : inRange s.base n.toNat = true
  · exact ⟨_, if_pos hin, advance_inv (setReg_inv (setFb_inv h _) regF _) hpc⟩
  · exact ⟨_, if_neg hin, raise_inv h (rangeFault s.base)⟩

theorem execLoadRegs_inv (x : Reg) (hpc : s.pc.toNat + 1 < 4096) : ∃ t, execLoadRegs x s = .next t ∧ t.Inv := by
  by_cases hlt : s.i.toNat + x.val < 4096
  · exact ⟨_, execLoadRegs_of_lt hlt, setRegs_advance_inv h hpc _⟩
  · exact ⟨_, execLoadRegs_of_ge (by omega), raise_inv h _⟩

theorem execLdVxK_inv (x : Reg) (hpc : s.pc.toNat + 1 < 4096) : ∃ t, execLdVxK x s = .next t ∧ t.Inv := by
  by_cases hkey : s.key = 0
  · exact ⟨_, if_pos hkey, h⟩
  · exact ⟨_, if_neg hkey, advance_inv (setReg_inv h x s.key) hpc⟩

/-- Every instruction that can be fetched answers a next state with the invariant. -/
theorem exec_inv (hpc : s.pc.toNat + 1 < 4096) (i : Instr) : Completes i s State.Inv :=
  match i with
  | .cls => ⟨_, rfl, advance_inv (setFb_inv h _) hpc⟩
  | .ret => execRet_inv h
  | .jp nnn => ⟨_, rfl, setPc_inv h (addrOf_le nnn)⟩
  | .call nnn => execCall_inv h nnn hpc
  | .jpV0 nnn => execJpV0_inv h nnn
  | .seImm .. | .sneImm .. | .seReg .. | .sneReg .. | .skp _ | .sknp _ => ⟨_, rfl, skipIf_inv h hpc _⟩
  | .ldImm .. | .addImm .. | .ldReg .. | .orReg .. | .andReg .. | .xorReg .. | .ldVxDT _ =>
    ⟨_, rfl, advance_inv (setReg_inv h _ _) hpc⟩
  | .addReg .. | .subReg .. | .shr .. | .subnReg .. | .shl .. =>
    ⟨_, rfl, advance_inv (setResultFlag_inv h _ _ _) hpc⟩
  | .rnd .. => ⟨_, rfl, advance_inv (setReg_inv (consumeRnd_inv h) _ _) hpc⟩
  | .ldI _ | .addI _ | .ldF _ => ⟨_, rfl, advance_inv (setI_inv h _) hpc⟩
  | .ldDTVx _ => ⟨_, rfl, advance_inv (setDt_inv h _) hpc⟩
  | .ldSTVx _ => ⟨_, rfl, advance_inv (setSt_inv h _) hpc⟩
  | .ldVxK x => execLdVxK_inv h x hpc
  | .drw x y n => execDrw_inv h x y n hpc
  | .ldB x => storeAtI_inv h (decimalDigits (s.reg x)) hpc
  | .storeRegs x => storeAtI_inv h (s.regRange x) hpc
  | .loadRegs x => execLoadRegs_inv h x hpc

/-! ### Every step, every run -/

/-- The tick at the end of a step writes the timers only. -/
theorem endStep_inv (b : Bool) : ∃ t, endStep b (.next s) = .next t ∧ t.Inv := by
  by_cases hb : (b && !s.halted) = true
  · exact ⟨_, if_pos hb, tick_inv h⟩
  · exact ⟨_, if_neg hb, h⟩

/-- A core step from a state with the invariant answers a next state with the invariant: halted, a fault of the fetch,
an illegal word, or an instruction. -/
theorem coreStep_inv (b : Bool) : ∃ t, coreStep b s = .next t ∧ t.Inv := by
  by_cases hrun : s.running
  · by_cases hpc : s.pc.toNat + 1 < 4096
    · cases hd : decode (wordOfBytes (s.ram.read s.pc.toNat) (s.ram.read (s.pc.toNat + 1))) with
      | illegalOpcode w => exact ⟨_, coreStep_of_illegal b hrun (fetch_of_lt hpc) hd, raise_inv h (.illegalOpcode w)⟩
      | instr i =>
        obtain ⟨u, hu, hinv⟩ := exec_inv h hpc i
        rw [coreStep_of_fetches b hrun ⟨hpc, hd⟩, hu]
        exact endStep_inv hinv b
    · exact ⟨_, coreStep_of_ge b hrun (by omega), raise_inv h _⟩
  · exact ⟨s, coreStep_of_halted b hrun, h⟩

/-- Every step completes and keeps the invariant (R28, R60). -/
theorem step_inv : StepsTo s State.Inv := coreStep_inv (afterTurn_inv h) s.turn.tick

end

/-- A run of `k + 1` steps whose first step answers `t` goes on from `t`. -/
theorem run_succ {s t : State} (k : Nat) (h : step s = .next t) : core.run (k + 1) s = core.run k t := by
  have hcore : core.step s = .next t := h
  simp only [Host.Core.run, hcore]

/-- From a state with the invariant a run of any length completes with the invariant. -/
theorem run_inv (k : Nat) {s : State} (h : s.Inv) : ∃ t, core.run k s = .next t ∧ t.Inv := by
  induction k generalizing s with
  | zero => exact ⟨s, rfl, h⟩
  | succ k ih =>
    obtain ⟨t, ht, hinv⟩ := step_inv h
    rw [run_succ k ht]
    exact ih hinv

/-- A ROM load keeps the invariant, whether it copies the ROM or fails. -/
theorem loadRom_inv (src : RomSource) {s : State} (h : s.Inv) : (loadRom src s).Inv := by
  have hm := loadRom_wf src h.ramWf
  rcases loadRom_cases src s with ⟨_, _, _, e⟩ | ⟨_, _, _, e⟩ | ⟨_, e⟩ <;> rw [e] at hm ⊢
  · exact setRam_inv h hm
  · exact raise_inv h _
  · exact raise_inv h _

/-- Every boot, a failed load included, ends in a state with the invariant (R115, R132). -/
theorem boot_inv (font : FontSource) (src : RomSource) : (boot font src).Inv := by
  cases font with
  | unreadable => exact raise_inv (setRam_inv reset_inv clearedRam_wf) .ioError
  | bytes font => exact loadRom_inv src (setRam_inv reset_inv (loadFont_wf font))

/-- Settles O51: every boot has the invariant, whatever the host schedules and injects, and every step completes and
keeps it. -/
theorem everyRunCompletesInTheInvariant : Obligations.EveryRunCompletesInTheInvariant := by
  intro font src turns rnd k
  exact run_inv k (withHost_inv (boot_inv font src) turns rnd)

end Sys2Proof.Machine
end

section
/-! PROOFS. The statements of spec/10_state.md: the reset values, the invariant, which step writes which part, what no
later step can see, the call stack, the random source, canonical memory. -/

namespace Sys2Proof.Machine

/-! ## Reset and the invariant (spec/10_state.md R27, R28) -/

theorem reset_reg (r : Reg) : State.reset.reg r = 0 := by simp [State.reg, State.reset]

theorem reset_stack (k : Fin 16) : State.reset.stack[k] = 0 := by simp [State.reset]

theorem reset_pixel (row : Fin 32) (col : Fin 64) : State.reset.fb.pixel row col = false := by
  simp [Framebuffer.pixel, State.reset]

/-- Settles O1: the registers hold the values `State.reset` writes, and memory, which lists no cell, reads as the reset
contents. -/
theorem resetLeavesTheStatedValues : Obligations.ResetLeavesTheStatedValues := by
  refine ⟨rfl, rfl, rfl, rfl, rfl, rfl, rfl, reset_reg, reset_stack, reset_pixel, fun a hout => resetByte_outside hout,
    fun k hk => ?_⟩
  exact (resetByte_font ⟨k, hk⟩).trans (List.getElem_eq_getD 0)

/-- Settles O48: the invariant holds at reset. -/
theorem invariantHoldsAtReset : Obligations.InvariantHoldsAtReset := reset_inv

/-- Settles O49: from a state with the invariant the step answers one next state, and that one has the invariant. -/
theorem everyStepKeepsTheInvariant : Obligations.EveryStepKeepsTheInvariant := by
  intro s t hs ht
  obtain ⟨u, hu, hinv⟩ := step_inv hs
  cases hu.symm.trans ht
  exact hinv

/-! ## Which step writes which part (spec/10_state.md R12 to R20) -/

theorem tick_sameBut (s : State) : SameBut [.dt, .st] s (tick s) := by
  intro p hp
  cases p with
  | dt | st => simp at hp
  | _ => simp [Part.Same]

/-- The end of a step adds the timers to what the instruction wrote. -/
theorem endStep_sameBut {b : Bool} {ps : List Part} {s t : State} {r : Result} (h : endStep b r = .next t)
    (hr : ∀ u, r = .next u → SameBut ps s u) : SameBut (ps ++ [.dt, .st]) s t := by
  obtain ⟨u, hu, ⟨_, _, rfl⟩ | ⟨_, rfl⟩⟩ := endStep_cases h
  · exact sameBut_trans (hr u hu) (tick_sameBut u)
  · exact sameBut_trans (hr t hu) (sameBut_refl _ t)

/-- A core step writes the timers and the parts of the instruction it fetched, or at most the latch. -/
theorem coreStep_sameBut {b : Bool} {s t : State} (h : coreStep b s = .next t) :
    SameBut [.fault, .info] s t ∨ ∃ i, s.fetches i ∧ SameBut (partsWritten i ++ [.dt, .st]) s t := by
  have hraise : ∀ c, SameBut [.fault, .info] s (raise c s) := fun c => (raise_tookFault c s).2.2
  rcases coreStep_cases h with ⟨_, rfl⟩ | ⟨_, _, rfl⟩ | ⟨_, _, _, _, _, rfl⟩ | ⟨_, i, hi, he⟩
  · exact .inl (sameBut_refl _ _)
  · exact .inl (hraise _)
  · exact .inl (hraise _)
  · exact .inr ⟨i, hi, endStep_sameBut he fun _ hu => (exec_frame i hu).parts⟩

/-- A part that is no timer and no latch differs after the step from what the host left only where the instruction at
`PC` is one that writes it. -/
theorem fetches_of_step_changes {p : Part} {s t : State} (h : step s = .next t) (hne : ¬ p.Same s.afterTurn t)
    (hlatch : p ∉ [Part.fault, .info] := by decide) (htimer : p ∉ [Part.dt, .st] := by decide) :
    ∃ i, s.fetches i ∧ p ∈ partsWritten i := by
  rcases coreStep_sameBut h with hsame | ⟨i, hi, hsame⟩
  · exact absurd (hsame p hlatch) hne
  · refine ⟨i, (afterTurn_fetches s i).mp hi, ?_⟩
    by_contra hp
    exact hne (hsame p (by rw [List.mem_append, not_or]; exact ⟨hp, htimer⟩))

/-! ### The instructions that write a part, read off the table `partsWritten` -/

theorem writes_sp {i : Instr} (h : .sp ∈ partsWritten i) : i = .ret ∨ ∃ nnn, i = .call nnn := by
  cases i <;> simp [partsWritten] at h ⊢

theorem writes_fb {i : Instr} (h : .fb ∈ partsWritten i) : i = .cls ∨ ∃ x y n, i = .drw x y n := by
  cases i <;> simp [partsWritten] at h ⊢

theorem writes_i {i : Instr} (h : .i ∈ partsWritten i) :
    (∃ nnn, i = .ldI nnn) ∨ (∃ x, i = .addI x) ∨ ∃ x, i = .ldF x := by
  cases i <;> simp [partsWritten] at h ⊢

theorem writes_ram {i : Instr} (h : .ram ∈ partsWritten i) : (∃ x, i = .ldB x) ∨ ∃ x, i = .storeRegs x := by
  cases i <;> simp [partsWritten] at h ⊢

theorem writes_st {i : Instr} (h : .st ∈ partsWritten i) : ∃ x, i = .ldSTVx x := by
  cases i <;> simp [partsWritten] at h ⊢

theorem stack_not_written {i : Instr} (h : .sp ∉ partsWritten i) : .stack ∉ partsWritten i := by
  cases i <;> simp [partsWritten] at h ⊢

theorem key_not_written (i : Instr) : .key ∉ partsWritten i := by cases i <;> simp [partsWritten]

/-- Settles O47: each part is written only where the fetched instruction lists it, and none lists the key latch. -/
theorem onlyTheirInstructionsWrite : Obligations.OnlyTheirInstructionsWrite := by
  intro s t h
  refine ⟨fun hne => ?_, fun ⟨row, col, hne⟩ => ?_, fun hne => ?_, fun ⟨a, hne⟩ => ?_, ?_⟩
  · have hchange : ¬ Part.sp.Same s.afterTurn t := by simpa [Part.Same] using hne
    obtain ⟨i, hi, hw⟩ := fetches_of_step_changes h hchange
    obtain rfl | ⟨nnn, rfl⟩ := writes_sp hw
    · exact .inl hi
    · exact .inr ⟨nnn, hi⟩
  · have hchange : ¬ Part.fb.Same s.afterTurn t := fun hsame => hne (by simpa using hsame row col)
    obtain ⟨i, hi, hw⟩ := fetches_of_step_changes h hchange
    obtain rfl | ⟨x, y, n, rfl⟩ := writes_fb hw
    · exact .inl hi
    · exact .inr ⟨x, y, n, hi⟩
  · have hchange : ¬ Part.i.Same s.afterTurn t := by simpa [Part.Same] using hne
    obtain ⟨i, hi, hw⟩ := fetches_of_step_changes h hchange
    obtain ⟨nnn, rfl⟩ | ⟨x, rfl⟩ | ⟨x, rfl⟩ := writes_i hw
    · exact .inl ⟨nnn, hi⟩
    · exact .inr (.inl ⟨x, hi⟩)
    · exact .inr (.inr ⟨x, hi⟩)
  · have hchange : ¬ Part.ram.Same s.afterTurn t := fun hsame => hne (by simpa using hsame a)
    obtain ⟨i, hi, hw⟩ := fetches_of_step_changes h hchange
    obtain ⟨x, rfl⟩ | ⟨x, rfl⟩ := writes_ram hw
    · exact .inl ⟨x, hi⟩
    · exact .inr ⟨x, hi⟩
  · by_contra hne
    obtain ⟨i, _, hw⟩ := fetches_of_step_changes (p := .key) h hne
    exact key_not_written i hw

/-! ## Simulation: what a relation must keep for every step to keep it -/

/-- Related states agree on what the step itself reads, and the parts of a step keep them related. -/
structure Simulation (R : State → State → Prop) : Prop where
  fault : ∀ {s s'}, R s s' → s'.fault = s.fault
  pc : ∀ {s s'}, R s s' → s'.pc = s.pc
  ram : ∀ {s s'}, R s s' → s'.ram = s.ram
  turns : ∀ {s s'}, R s s' → s'.turns = s.turns
  afterTurn : ∀ {s s'}, R s s' → R s.afterTurn s'.afterTurn
  raise : ∀ {s s'} (c : FaultCause), R s s' → R (raise c s) (raise c s')
  tick : ∀ {s s'}, R s s' → R (tick s) (tick s')
  exec : ∀ {s s' t} (i : Instr), R s s' → exec i s = .next t → ∃ t', exec i s' = .next t' ∧ R t t'

theorem fetches_congr {s s' : State} {i : Instr} (hpc : s'.pc = s.pc) (hram : s'.ram = s.ram) (h : s.fetches i) :
    s'.fetches i := by
  unfold State.fetches
  rw [hpc, hram]
  exact h

theorem fetch_congr {s s' : State} (hpc : s'.pc = s.pc) (hram : s'.ram = s.ram) : fetch s' = fetch s := by
  unfold fetch
  rw [hpc, hram]

theorem endStep_of_halted (b : Bool) {s : State} (h : s.halted = true) : endStep b (.next s) = .next s := by
  simp [endStep, h]

theorem endStep_true_of_running {s : State} (h : s.halted = false) : endStep true (.next s) = .next (tick s) := by
  simp [endStep, h]

section
variable {R : State → State → Prop} (sim : Simulation R) {s s' t : State} (hR : R s s')
include sim hR

theorem Simulation.running : s'.running ↔ s.running := by rw [State.running, State.running, sim.fault hR]

theorem Simulation.halted : s'.halted = s.halted := by rw [State.halted, State.halted, sim.fault hR]

theorem Simulation.endStep {b : Bool} (h : endStep b (.next s) = .next t) :
    ∃ t', endStep b (.next s') = .next t' ∧ R t t' := by
  obtain ⟨u, hu, hend⟩ := endStep_cases h
  cases hu
  rcases hend with ⟨rfl, hrun, rfl⟩ | ⟨hno, rfl⟩
  · exact ⟨_, endStep_true_of_running ((sim.halted hR).trans hrun), sim.tick hR⟩
  · refine ⟨s', ?_, hR⟩
    rcases hno with rfl | hhalt
    · rfl
    · exact endStep_of_halted b ((sim.halted hR).trans hhalt)

theorem Simulation.coreStep {b : Bool} (h : coreStep b s = .next t) : ∃ t', coreStep b s' = .next t' ∧ R t t' := by
  have hrun := sim.running hR
  have hpc := sim.pc hR
  have hram := sim.ram hR
  rcases coreStep_cases h with ⟨hr, rfl⟩ | ⟨hr, hge, rfl⟩ | ⟨hr, op, w, hf, hd, rfl⟩ | ⟨hr, i, hi, he⟩
  · exact ⟨s', coreStep_of_halted b (mt hrun.mp hr), hR⟩
  · rw [← hpc] at hge ⊢
    exact ⟨_, coreStep_of_ge b (hrun.mpr hr) hge, sim.raise _ hR⟩
  · exact ⟨_, coreStep_of_illegal b (hrun.mpr hr) ((fetch_congr hpc hram).trans hf) hd, sim.raise _ hR⟩
  · obtain ⟨u, hu, _⟩ := endStep_cases he
    obtain ⟨u', hu', hRu⟩ := sim.exec i hR hu
    rw [coreStep_of_fetches b (hrun.mpr hr) (fetches_congr hpc hram hi), hu']
    exact sim.endStep hRu (hu ▸ he)

/-- Related states step to related states. -/
theorem Simulation.step (h : step s = .next t) : ∃ t', step s' = .next t' ∧ R t t' := by
  have hturn : s'.turn = s.turn := by rw [State.turn, State.turn, sim.turns hR]
  obtain ⟨t', ht', hRt⟩ := sim.coreStep (sim.afterTurn hR) h
  exact ⟨t', by rw [Machine.step, hostStep, hturn]; exact ht', hRt⟩

end

/-! ## What no later step can see (spec/10_state.md R15, R17) -/

/-- The state with other contents of `ST` and of the call stack. -/
def State.withUnseen (s : State) (b : Byte) (stack : Vector Word 16) : State := { s with st := b, stack := stack }

section
variable {s t : State} (b : Byte) (stack : Vector Word 16)

theorem afterTurn_withUnseen (s : State) : (s.withUnseen b stack).afterTurn = s.afterTurn.withUnseen b stack := by
  have hturn : (s.withUnseen b stack).turn = s.turn := rfl
  unfold State.afterTurn
  rw [hturn]
  cases s.turn.key <;> rfl

theorem storeAtI_withUnseen {bs : List Byte} (h : storeAtI bs s = .next t) :
    storeAtI bs (s.withUnseen b stack) = .next (t.withUnseen b stack) := by
  rcases storeAtI_cases bs s with ⟨hin, e⟩ | ⟨hout, e⟩ <;> cases e.symm.trans h
  · exact if_pos hin
  · exact if_neg (ne_true_of_eq_false hout)

theorem execDrw_withUnseen {x y : Reg} {n : Nibble} (h : execDrw x y n s = .next t) :
    execDrw x y n (s.withUnseen b stack) = .next (t.withUnseen b stack) := by
  rcases execDrw_cases h with ⟨hin, rfl⟩ | ⟨hout, rfl⟩
  · exact if_pos hin
  · exact if_neg (ne_true_of_eq_false hout)

theorem execLoadRegs_withUnseen {x : Reg} (h : execLoadRegs x s = .next t) :
    execLoadRegs x (s.withUnseen b stack) = .next (t.withUnseen b stack) := by
  rcases execLoadRegs_cases h with ⟨hin, rfl⟩ | ⟨hout, rfl⟩
  · exact if_pos hin
  · exact if_neg (ne_true_of_eq_false hout)

theorem execLdVxK_withUnseen {x : Reg} (h : execLdVxK x s = .next t) :
    execLdVxK x (s.withUnseen b stack) = .next (t.withUnseen b stack) := by
  rcases execLdVxK_cases h with ⟨h0, rfl⟩ | ⟨hne, rfl⟩
  · exact if_pos h0
  · exact if_neg hne

/-- An instruction that writes neither `ST` nor `SP` carries `ST` and the stack through: it reads neither. -/
theorem exec_withUnseen (i : Instr) (hst : .st ∉ partsWritten i) (hsp : .sp ∉ partsWritten i) (h : exec i s = .next t) :
    exec i (s.withUnseen b stack) = .next (t.withUnseen b stack) :=
  match i, h with
  | .ret, _ | .call _, _ => absurd (by simp [partsWritten]) hsp
  | .ldSTVx _, _ => absurd (by simp [partsWritten]) hst
  | .cls, rfl | .jp _, rfl | .jpV0 _, rfl | .seImm .., rfl | .sneImm .., rfl | .seReg .., rfl | .sneReg .., rfl
  | .skp _, rfl | .sknp _, rfl | .ldImm .., rfl | .addImm .., rfl | .ldReg .., rfl | .orReg .., rfl | .andReg .., rfl
  | .xorReg .., rfl | .addReg .., rfl | .subReg .., rfl | .shr .., rfl | .subnReg .., rfl | .shl .., rfl | .rnd .., rfl
  | .ldI _, rfl | .addI _, rfl | .ldF _, rfl | .ldVxDT _, rfl | .ldDTVx _, rfl => rfl
  | .ldVxK _, h => execLdVxK_withUnseen b stack h
  | .drw .., h => execDrw_withUnseen b stack h
  | .ldB _, h => storeAtI_withUnseen b stack h
  | .storeRegs _, h => storeAtI_withUnseen b stack h
  | .loadRegs _, h => execLoadRegs_withUnseen b stack h

end

/-! ### The sound timer -/

/-- The two states differ at most in `ST`. -/
def SameButSt (s s' : State) : Prop := ∃ b : Byte, s' = s.withUnseen b s.stack

/-- `ST` is written by `Fx18`, which does not read it, and carried through by every other instruction. -/
theorem exec_sameButSt {s s' t : State} (i : Instr) (hR : SameButSt s s') (h : exec i s = .next t) :
    ∃ t', exec i s' = .next t' ∧ SameButSt t t' := by
  obtain ⟨b, rfl⟩ := hR
  by_cases hst : .st ∈ partsWritten i
  · obtain ⟨x, rfl⟩ := writes_st hst
    cases h
    exact ⟨_, rfl, s.reg x, rfl⟩
  by_cases hsp : .sp ∈ partsWritten i
  · obtain rfl | ⟨nnn, rfl⟩ := writes_sp hsp
    · rcases execRet_cases h with ⟨h0, rfl⟩ | ⟨h0, hlt, rfl⟩
      · exact ⟨_, if_pos h0, b, rfl⟩
      · exact ⟨_, execRet_of_pos (s := s.withUnseen b s.stack) h0 hlt, b, rfl⟩
    · rcases execCall_cases h with ⟨h16, rfl⟩ | ⟨hlt, rfl⟩
      · exact ⟨_, if_pos h16, b, rfl⟩
      · exact ⟨_, execCall_of_lt (s := s.withUnseen b s.stack) nnn hlt, b, rfl⟩
  · have hstack : t.stack = s.stack :=
      Vector.ext fun k hk => (exec_frame i h).parts .stack (stack_not_written hsp) ⟨k, hk⟩
    exact ⟨_, exec_withUnseen b s.stack i hst hsp h, b, by rw [hstack]⟩

theorem simulation_sameButSt : Simulation SameButSt where
  fault := by rintro s _ ⟨b, rfl⟩; rfl
  pc := by rintro s _ ⟨b, rfl⟩; rfl
  ram := by rintro s _ ⟨b, rfl⟩; rfl
  turns := by rintro s _ ⟨b, rfl⟩; rfl
  afterTurn := by
    rintro s _ ⟨b, rfl⟩
    exact ⟨b, by rw [afterTurn_withUnseen, afterTurn_stack]⟩
  raise := by rintro s _ c ⟨b, rfl⟩; exact ⟨b, rfl⟩
  tick := by rintro s _ ⟨b, rfl⟩; exact ⟨countDown b, rfl⟩
  exec := exec_sameButSt

/-- Settles O53: to differ at most in `ST` is a simulation. -/
theorem soundTimerIsUnobservable : Obligations.SoundTimerIsUnobservable := by
  intro s t b h
  obtain ⟨_, ht', b', rfl⟩ := simulation_sameButSt.step ⟨b, rfl⟩ h
  exact ⟨b', ht'⟩

/-! ### The dead stack entries -/

/-- The two states differ at most in stack entries at or above `SP`. -/
def SameButDeadStack (s s' : State) : Prop :=
  ∃ stack : Vector Word 16, s' = s.withUnseen s.st stack ∧ ∀ k : Fin 16, k.val < s.sp.toNat → stack[k] = s.stack[k]

section
variable {s t : State} {stack : Vector Word 16} (hlive : ∀ k : Fin 16, k.val < s.sp.toNat → stack[k] = s.stack[k])
include hlive

/-- `00EE` reads the entry below `SP`, which is live. -/
theorem execRet_sameButDeadStack (h : execRet s = .next t) :
    ∃ t', execRet (s.withUnseen s.st stack) = .next t' ∧ SameButDeadStack t t' := by
  rcases execRet_cases h with ⟨h0, rfl⟩ | ⟨h0, hlt, rfl⟩
  · exact ⟨_, if_pos h0, stack, rfl, hlive⟩
  · have htop : (s.withUnseen s.st stack).top hlt = s.top hlt := hlive ⟨_, hlt⟩ (by bv_omega)
    refine ⟨_, execRet_of_pos (s := s.withUnseen s.st stack) h0 hlt, stack, by rw [htop]; rfl, fun k hk => hlive k ?_⟩
    rw [setPc_sp, drop_sp] at hk
    bv_omega

/-- `2nnn` writes the one entry that becomes live. -/
theorem execCall_sameButDeadStack {nnn : Addr12} (h : execCall nnn s = .next t) :
    ∃ t', execCall nnn (s.withUnseen s.st stack) = .next t' ∧ SameButDeadStack t t' := by
  rcases execCall_cases h with ⟨h16, rfl⟩ | ⟨hlt, rfl⟩
  · exact ⟨_, if_pos h16, stack, rfl, hlive⟩
  · refine ⟨_, execCall_of_lt (s := s.withUnseen s.st stack) nnn hlt, stack.set s.sp.toNat (s.pc + 2), rfl, fun k hk => ?_⟩
    rw [setPc_sp, push_sp] at hk
    rw [setPc_stack, push_stack, Fin.getElem_fin, Fin.getElem_fin, Vector.getElem_set, Vector.getElem_set]
    split
    · rfl
    · exact hlive k (by bv_omega)

end

/-- Only `00EE` and `2nnn` touch the stack; every other instruction carries it through. -/
theorem exec_sameButDeadStack {s s' t : State} (i : Instr) (hR : SameButDeadStack s s') (h : exec i s = .next t) :
    ∃ t', exec i s' = .next t' ∧ SameButDeadStack t t' := by
  obtain ⟨stack, rfl, hlive⟩ := hR
  by_cases hsp : .sp ∈ partsWritten i
  · obtain rfl | ⟨nnn, rfl⟩ := writes_sp hsp
    · exact execRet_sameButDeadStack hlive h
    · exact execCall_sameButDeadStack hlive h
  by_cases hst : .st ∈ partsWritten i
  · obtain ⟨x, rfl⟩ := writes_st hst
    cases h
    exact ⟨_, rfl, stack, rfl, hlive⟩
  · have hsame := (exec_frame i h).parts
    have hst' : t.st = s.st := hsame .st hst
    have hsp' : t.sp = s.sp := hsame .sp hsp
    refine ⟨_, exec_withUnseen s.st stack i hst hsp h, stack, by rw [hst'], fun k hk => ?_⟩
    rw [hsp'] at hk
    exact (hlive k hk).trans (hsame .stack (stack_not_written hsp) k).symm

theorem simulation_sameButDeadStack : Simulation SameButDeadStack where
  fault := by rintro s _ ⟨stack, rfl, _⟩; rfl
  pc := by rintro s _ ⟨stack, rfl, _⟩; rfl
  ram := by rintro s _ ⟨stack, rfl, _⟩; rfl
  turns := by rintro s _ ⟨stack, rfl, _⟩; rfl
  afterTurn := by
    rintro s _ ⟨stack, rfl, hlive⟩
    exact ⟨stack, by rw [afterTurn_withUnseen, afterTurn_st], by simpa using hlive⟩
  raise := by rintro s _ c ⟨stack, rfl, hlive⟩; exact ⟨stack, rfl, hlive⟩
  tick := by rintro s _ ⟨stack, rfl, hlive⟩; exact ⟨stack, rfl, hlive⟩
  exec := exec_sameButDeadStack

/-- Settles O52: to differ at most in stack entries at or above `SP` is a simulation; that `SP <= 16` is not needed, as
above 16 `2nnn` and `00EE` answer no next state. -/
theorem deadStackEntriesAreUnobservable : Obligations.DeadStackEntriesAreUnobservable := by
  intro s t stack _ hlive h
  obtain ⟨_, ht', stack', rfl, hlive'⟩ := simulation_sameButDeadStack.step ⟨stack, rfl, hlive⟩ h
  exact ⟨stack', ht', hlive'⟩

/-! ## The call stack (spec/10_state.md R14) -/

/-- Settles O23: neither guard of `2nnn` and `00EE` lets an `SP` above 16 through. -/
theorem stackPointerOutOfRangeStops : Obligations.StackPointerOutOfRangeStops := by
  intro nnn s hsp
  constructor
  · have hfull : s.sp ≠ 16 := by bv_omega
    have hroom : ¬ s.sp.toNat < 16 := by omega
    exact (if_neg hfull).trans (dif_neg hroom)
  · have hempty : s.sp ≠ 0 := by bv_omega
    have hentry : ¬ s.sp.toNat - 1 < 16 := by omega
    exact (if_neg hempty).trans (dif_neg hentry)

/-- Calls that fit on the stack all complete, and `SP` counts them. -/
theorem callAll_of_room (targets : List Addr12) {s : State} (h : s.sp.toNat + targets.length ≤ 16) :
    ∃ t, callAll targets s = some t ∧ t.sp.toNat = s.sp.toNat + targets.length := by
  induction targets generalizing s with
  | nil => exact ⟨s, rfl, rfl⟩
  | cons nnn rest ih =>
    rw [List.length_cons] at h
    have hlt : s.sp.toNat < 16 := by omega
    have hcall : exec (.call nnn) s = .next ((s.push (s.pc + 2) hlt).setPc (addrOf nnn)) := execCall_of_lt nnn hlt
    have hsp : ((s.push (s.pc + 2) hlt).setPc (addrOf nnn)).sp.toNat = s.sp.toNat + 1 := by
      rw [setPc_sp, push_sp]
      bv_omega
    obtain ⟨t, ht, hcount⟩ := ih (s := (s.push (s.pc + 2) hlt).setPc (addrOf nnn)) (by omega)
    exact ⟨t, by rw [callAll, hcall]; exact ht, by rw [hcount, hsp, List.length_cons]; omega⟩

/-- Settles O25: sixteen calls fill the empty stack, and a call on the full stack takes the fault. -/
theorem seventeenthCallOverflows : Obligations.SeventeenthCallOverflows := by
  intro targets s hempty hlen
  have hroom : s.sp.toNat + targets.length ≤ 16 := by simp [hempty, hlen]
  obtain ⟨t, ht, hcount⟩ := callAll_of_room targets hroom
  have hfull : t.sp = 16 := BitVec.eq_of_toNat_eq (by simp [hcount, hempty, hlen])
  exact ⟨t, ht, hfull, fun _ => ⟨_, if_pos hfull, raise_tookFault .stackOverflow t⟩⟩

/-! ## The random source (spec/10_state.md R25) -/

/-- Settles O33: `Cxnn` is one register write, one byte consumed and the advance. -/
theorem randomByteIsMasked : Obligations.RandomByteIsMasked := by
  intro x nn s
  have hexec : exec (.rnd x nn) s = .next (writeAdvance x (s.rndByte &&& nn) s.consumeRnd) := rfl
  have hreg : (writeAdvance x (s.rndByte &&& nn) s.consumeRnd).reg x = s.rndByte &&& nn := by simp [writeAdvance]
  obtain ⟨hparts, hregs, _⟩ := exec_frame (.rnd x nn) hexec
  refine ⟨_, hexec, hreg, ?_, fun b rest hin => ⟨?_, ?_⟩, rfl, rfl, hregs, hparts⟩
  · rw [hreg, BitVec.and_assoc, BitVec.and_not_self]
    exact BitVec.and_zero
  · rw [hreg, State.rndByte, hin]
  · simp [writeAdvance, hin]

/-! ## Canonical memory (spec/10_state.md R18) -/

theorem wfFrom_cons_iff {lo k : Nat} {b : Byte} {m : Memory} :
    Memory.wfFrom lo ((k, b) :: m) = true ↔ lo ≤ k ∧ k < 4096 ∧ b ≠ Config.resetByte k ∧ m.wfFrom (k + 1) = true := by
  simp [Memory.wfFrom, Config.ramSize, and_assoc]

theorem read_cons_same (k : Nat) (b : Byte) (m : Memory) : Memory.read ((k, b) :: m) k = b := by simp [Memory.read]

theorem read_cons_other {k a : Nat} (b : Byte) (m : Memory) (h : k ≠ a) : Memory.read ((k, b) :: m) a = m.read a := by
  simp [Memory.read, h]

/-- Where a canonical memory reads other than the reset contents, it has begun. -/
theorem le_of_read_ne_resetByte {m : Memory} {lo a : Nat} (h : m.wfFrom lo = true)
    (hne : m.read a ≠ Config.resetByte a) : lo ≤ a :=
  Nat.le_of_not_lt fun hlt => hne (read_below_of_wfFrom h hlt)

/-- A canonical memory that reads the same as one whose first cell is at `k` begins at or below `k`. -/
theorem le_of_read_eq_cons {m m' : Memory} {lo k : Nat} {b : Byte} (h : m'.wfFrom lo = true)
    (hb : b ≠ Config.resetByte k) (hread : ∀ a, Memory.read ((k, b) :: m) a = m'.read a) : lo ≤ k :=
  le_of_read_ne_resetByte h (by rw [← hread, read_cons_same]; exact hb)

/-- A canonical memory is determined by what it reads as: the first cells have the same address, so the same byte, and
the tails read the same. -/
theorem eq_of_wfFrom_of_read_eq {m m' : Memory} {lo lo' : Nat} (h : m.wfFrom lo = true) (h' : m'.wfFrom lo' = true)
    (hread : ∀ a, m.read a = m'.read a) : m = m' := by
  induction m generalizing lo lo' m' with
  | nil =>
    cases m' with
    | nil => rfl
    | cons cell' m' =>
      obtain ⟨k', b'⟩ := cell'
      obtain ⟨_, _, hb', _⟩ := wfFrom_cons_iff.mp h'
      exact absurd (hread k').symm (by rw [read_cons_same]; exact hb')
  | cons cell m ih =>
    obtain ⟨k, b⟩ := cell
    obtain ⟨_, hk, hb, hm⟩ := wfFrom_cons_iff.mp h
    cases m' with
    | nil => exact absurd (hread k) (by rw [read_cons_same]; exact hb)
    | cons cell' m' =>
      obtain ⟨k', b'⟩ := cell'
      obtain ⟨_, hk', hb', hm'⟩ := wfFrom_cons_iff.mp h'
      have hle : k' ≤ k := le_of_read_eq_cons (wfFrom_cons_iff.mpr ⟨le_rfl, hk', hb', hm'⟩) hb hread
      have hge : k ≤ k' := le_of_read_eq_cons (wfFrom_cons_iff.mpr ⟨le_rfl, hk, hb, hm⟩) hb' fun a => (hread a).symm
      obtain rfl : k = k' := Nat.le_antisymm hge hle
      have hbyte : b = b' := by simpa only [read_cons_same] using hread k
      have htail : ∀ a, Memory.read m a = Memory.read m' a := by
        intro a
        by_cases ha : k = a
        · rw [read_below_of_wfFrom hm (by omega), read_below_of_wfFrom hm' (by omega)]
        · simpa only [read_cons_other _ _ ha] using hread a
      rw [hbyte, ih hm hm' htail]

/-- Settles O40: outside `ram` both memories read the reset contents, so they read the same everywhere. -/
theorem canonicalMemoryIsUnique : Obligations.CanonicalMemoryIsUnique := by
  intro m m' hm hm' hread
  refine eq_of_wfFrom_of_read_eq hm hm' fun a => ?_
  by_cases ha : a < 4096
  · exact hread a ha
  · rw [read_outside_of_wfFrom hm (by omega), read_outside_of_wfFrom hm' (by omega)]

end Sys2Proof.Machine
end

section
/-! PROOFS. The statement of spec/20_memory.md: a stored word is the word the next fetch reads. -/

namespace Sys2Proof.Machine

/-- Each byte of a range store inside `ram` reads back (R96). -/
theorem storeRegs_read {x r : Reg} {s t : State} (hw : s.ram.wf = true) (hlt : s.i.toNat + x.val < 4096) (hr : r ≤ x)
    (h : exec (.storeRegs x) s = .next t) : t.ram.read (s.i.toNat + r.val) = s.reg r := by
  have hfits : s.i.toNat + (s.regRange x).length ≤ 4096 := by rw [regRange_length]; omega
  have hin : r.val < (s.regRange x).length := by rw [regRange_length]; exact Nat.lt_succ_of_le hr
  obtain ⟨u, hu, _, hread, _⟩ := storeAtI_of_le hw hfits
  obtain rfl : u = t := Host.Outcome.next.inj (hu.symm.trans h)
  rw [hread r.val hin, regRange_getElem]

/-- Settles O39: the two bytes at `PC` are two bytes of the store, and as `V[r+1]` is stored inside `ram` the fetch
stays inside it. -/
theorem storeIsSeenByTheNextFetch : Obligations.StoreIsSeenByTheNextFetch := by
  intro x s t r hw hlt hr h hpc
  have hsucc : (r + 1).val = r.val + 1 := Fin.val_add_one_of_lt (lt_of_lt_of_le hr (Fin.le_last x))
  have hnext : r.val + 1 ≤ x.val := hr
  have hhigh : t.ram.read t.pc.toNat = s.reg r := by
    rw [hpc]
    exact storeRegs_read hw hlt hr.le h
  have hlow : t.ram.read (t.pc.toNat + 1) = s.reg (r + 1) := by
    rw [hpc, Nat.add_assoc, ← hsucc]
    exact storeRegs_read hw hlt (Fin.le_def.mpr (hsucc.trans_le hnext)) h
  have hinside : t.pc.toNat + 1 < 4096 := by omega
  rw [fetch_of_lt hinside, hhigh, hlow]

end Sys2Proof.Machine
end

section
/-! PROOFS. The statements of spec/30_encoding.md: the decoder and the encoder undo each other, the legal and the illegal
words, the fault of an illegal word. -/

namespace Sys2Proof

/-! ## A word from its fields, where the class and the secondary field are known -/

theorem encodeNNN_eq {op : Word} {c : Nibble} (hc : (fieldsOf op).cls = c) : encodeNNN c (fieldsOf op).nnn = op :=
  hc ▸ encodeNNN_fieldsOf op

theorem encodeXNN_eq {op : Word} {c : Nibble} {nn : Byte} (hc : (fieldsOf op).cls = c) (hnn : (fieldsOf op).nn = nn) :
    encodeXNN c (fieldsOf op).x nn = op :=
  hc ▸ hnn ▸ encodeXNN_fieldsOf op

theorem encodeXYN_eq {op : Word} {c n : Nibble} (hc : (fieldsOf op).cls = c) (hn : (fieldsOf op).n = n) :
    encodeXYN c (fieldsOf op).x (fieldsOf op).y n = op :=
  hc ▸ hn ▸ encodeXYN_fieldsOf op

/-! ## What the decoder answers, class by class (R49 to R54) -/

/-- The answer keeps every bit of the word: an instruction encodes to it, a rejection names it. -/
def ReadsBack (op : Word) : Decoded → Prop
  | .instr i => encode i = op
  | .illegalOpcode w => w = op

theorem decode0_readsBack (op : Word) : ReadsBack op (decode0 op) := by
  unfold decode0
  split
  · next h => exact h.symm
  · split
    · next h => exact h.symm
    · rfl

theorem decode8_readsBack {op : Word} (hc : (fieldsOf op).cls = 0x8) : ReadsBack op (decode8 op (fieldsOf op)) := by
  unfold decode8
  split
  case h_10 => rfl
  all_goals next hn => exact encodeXYN_eq hc hn

theorem decodeE_readsBack {op : Word} (hc : (fieldsOf op).cls = 0xE) : ReadsBack op (decodeE op (fieldsOf op)) := by
  unfold decodeE
  split
  case h_3 => rfl
  all_goals next hnn => exact encodeXNN_eq hc hnn

theorem decodeF_readsBack {op : Word} (hc : (fieldsOf op).cls = 0xF) : ReadsBack op (decodeF op (fieldsOf op)) := by
  unfold decodeF
  split
  case h_10 => rfl
  all_goals next hnn => exact encodeXNN_eq hc hnn

theorem decode_readsBack (op : Word) : ReadsBack op (decode op) := by
  unfold decode
  dsimp only
  split
  case h_1 => exact decode0_readsBack op
  case h_2 hc | h_3 hc | h_11 hc | h_12 hc => exact encodeNNN_eq hc
  case h_4 hc | h_5 hc | h_7 hc | h_8 hc | h_13 hc => exact encodeXNN_eq hc rfl
  case h_6 hc | h_10 hc =>
    split
    · next hn => exact encodeXYN_eq hc hn
    · rfl
  case h_9 hc => exact decode8_readsBack hc
  case h_14 hc => exact encodeXYN_eq hc rfl
  case h_15 hc => exact decodeE_readsBack hc
  case h_16 hc => exact decodeF_readsBack hc
  case h_17 => rfl

/-! ## The decoder and the encoder undo each other -/

/-- Settles O5: the fields of an encoded word are the operands, and its class and secondary field select the branch of
the decoder; one case per format and class. -/
theorem decodeAfterEncode : Obligations.DecodeAfterEncode := by
  intro i
  cases i with
  | cls | ret => rfl
  | jp | call | ldI | jpV0 => simp [encode, decode]
  | seImm | sneImm | ldImm | addImm | rnd => simp [encode, decode]
  | seReg | sneReg | drw => simp [encode, decode]
  | ldReg | orReg | andReg | xorReg | addReg | subReg | shr | subnReg | shl => simp [encode, decode, decode8]
  | skp | sknp => simp [encode, decode, decodeE]
  | ldVxDT | ldVxK | ldDTVx | ldSTVx | addI | ldF | ldB | storeRegs | loadRegs => simp [encode, decode, decodeF]

/-- Settles O6: the decoder's answer keeps every bit of the word. -/
theorem encodeAfterDecode : Obligations.EncodeAfterDecode := by
  intro op i h
  have hback := decode_readsBack op
  rwa [h] at hback

/-! ## The legal words, by class and secondary field (R49 to R54) -/

theorem nibble_cases (c : Nibble) :
    c = 0x0 ∨ c = 0x1 ∨ c = 0x2 ∨ c = 0x3 ∨ c = 0x4 ∨ c = 0x5 ∨ c = 0x6 ∨ c = 0x7
    ∨ c = 0x8 ∨ c = 0x9 ∨ c = 0xA ∨ c = 0xB ∨ c = 0xC ∨ c = 0xD ∨ c = 0xE ∨ c = 0xF := by
  revert c
  decide

/-- The condition on the fields under which a word is an instruction, in the order of the opcode map. -/
def LegalFields (op : Word) : Prop :=
  op ∈ [0x00E0#16, 0x00EE#16]
  ∨ (fieldsOf op).cls ∈ [0x1#4, 0x2#4, 0x3#4, 0x4#4]
  ∨ ((fieldsOf op).cls = 0x5 ∧ (fieldsOf op).n = 0x0)
  ∨ (fieldsOf op).cls ∈ [0x6#4, 0x7#4]
  ∨ ((fieldsOf op).cls = 0x8 ∧ (fieldsOf op).n ∈ [0x0#4, 0x1#4, 0x2#4, 0x3#4, 0x4#4, 0x5#4, 0x6#4, 0x7#4, 0xE#4])
  ∨ ((fieldsOf op).cls = 0x9 ∧ (fieldsOf op).n = 0x0)
  ∨ (fieldsOf op).cls ∈ [0xA#4, 0xB#4, 0xC#4, 0xD#4]
  ∨ ((fieldsOf op).cls = 0xE ∧ (fieldsOf op).nn ∈ [0x9E#8, 0xA1#8])
  ∨ ((fieldsOf op).cls = 0xF
      ∧ (fieldsOf op).nn ∈ [0x07#8, 0x0A#8, 0x15#8, 0x18#8, 0x1E#8, 0x29#8, 0x33#8, 0x55#8, 0x65#8])

theorem cls_of_mem_class0 {op : Word} (h : op ∈ [0x00E0#16, 0x00EE#16]) : (fieldsOf op).cls = 0x0 := by
  simp only [List.mem_cons, List.not_mem_nil, or_false] at h
  rcases h with rfl | rfl <;> rfl

theorem decode0_isInstr_iff (op : Word) : (∃ i, decode0 op = .instr i) ↔ op ∈ [0x00E0#16, 0x00EE#16] := by
  unfold decode0
  split
  · simp [*]
  · split <;> simp [*]

theorem decode8_isInstr_iff (op : Word) (f : Fields) :
    (∃ i, decode8 op f = .instr i) ↔ f.n ∈ [0x0#4, 0x1#4, 0x2#4, 0x3#4, 0x4#4, 0x5#4, 0x6#4, 0x7#4, 0xE#4] := by
  unfold decode8
  split
  case h_10 => simp_all
  all_goals simp [*]

theorem decodeE_isInstr_iff (op : Word) (f : Fields) : (∃ i, decodeE op f = .instr i) ↔ f.nn ∈ [0x9E#8, 0xA1#8] := by
  unfold decodeE
  split
  case h_3 => simp_all
  all_goals simp [*]

theorem decodeF_isInstr_iff (op : Word) (f : Fields) :
    (∃ i, decodeF op f = .instr i)
      ↔ f.nn ∈ [0x07#8, 0x0A#8, 0x15#8, 0x18#8, 0x1E#8, 0x29#8, 0x33#8, 0x55#8, 0x65#8] := by
  unfold decodeF
  split
  case h_10 => simp_all
  all_goals simp [*]

/-- The decoder accepts a word by its fields. -/
theorem decode_isInstr_iff (op : Word) : (∃ i, decode op = .instr i) ↔ LegalFields op := by
  have h0 (hc : (fieldsOf op).cls ≠ 0x0) : op ∉ [0x00E0#16, 0x00EE#16] := mt cls_of_mem_class0 hc
  unfold decode LegalFields
  dsimp only
  split
  case h_1 hc => rw [decode0_isInstr_iff]; simp [hc]
  case h_9 hc => rw [decode8_isInstr_iff]; simp [hc, h0]
  case h_15 hc => rw [decodeE_isInstr_iff]; simp [hc, h0]
  case h_16 hc => rw [decodeF_isInstr_iff]; simp [hc, h0]
  case h_6 hc | h_10 hc =>
    have hne := h0 (by simp [hc])
    split <;> simp [*]
  case h_17 =>
    have hcls := nibble_cases (fieldsOf op).cls
    simp_all
  all_goals next hc => simp [hc]

theorem decode_illegalOpcode_iff (op : Word) : decode op = .illegalOpcode op ↔ ¬ LegalFields op := by
  rw [← decode_isInstr_iff]
  have hback := decode_readsBack op
  cases hd : decode op with
  | instr i => simp
  | illegalOpcode w =>
    rw [hd] at hback
    obtain rfl : w = op := hback
    simp

/-! ## The rows of the opcode map (R50): what a mask shows of a word -/

theorem and_F000 (op : Word) : op &&& 0xF000#16 = encodeNNN (fieldsOf op).cls 0 :=
  calc op &&& 0xF000#16
      = encodeNNN (fieldsOf op).cls (fieldsOf op).nnn &&& (BitVec.allOnes 4 ++ 0x000#12) := by
        rw [encodeNNN_fieldsOf]; rfl
    _ = encodeNNN (fieldsOf op).cls 0 := by
        rw [encodeNNN, append_and, BitVec.and_allOnes, BitVec.and_zero]; rfl

theorem and_F00F (op : Word) : op &&& 0xF00F#16 = encodeXYN (fieldsOf op).cls 0 0 (fieldsOf op).n :=
  calc op &&& 0xF00F#16
      = encodeXYN (fieldsOf op).cls (fieldsOf op).x (fieldsOf op).y (fieldsOf op).n
          &&& (BitVec.allOnes 4 ++ 0x0#4 ++ 0x0#4 ++ BitVec.allOnes 4) := by rw [encodeXYN_fieldsOf]; rfl
    _ = encodeXYN (fieldsOf op).cls 0 0 (fieldsOf op).n := by
        rw [encodeXYN, append_and, append_and, append_and, BitVec.and_allOnes, BitVec.and_allOnes, BitVec.and_zero,
          BitVec.and_zero]
        rfl

theorem and_F0FF (op : Word) : op &&& 0xF0FF#16 = encodeXNN (fieldsOf op).cls 0 (fieldsOf op).nn :=
  calc op &&& 0xF0FF#16
      = encodeXNN (fieldsOf op).cls (fieldsOf op).x (fieldsOf op).nn
          &&& (BitVec.allOnes 4 ++ 0x0#4 ++ BitVec.allOnes 8) := by rw [encodeXNN_fieldsOf]; rfl
    _ = encodeXNN (fieldsOf op).cls 0 (fieldsOf op).nn := by
        rw [encodeXNN, append_and, append_and, BitVec.and_allOnes, BitVec.and_allOnes, BitVec.and_zero]
        rfl

theorem and_F000_eq_iff (op p : Word) (hp : p &&& 0xF000#16 = p) :
    op &&& 0xF000#16 = p ↔ (fieldsOf op).cls = (fieldsOf p).cls := by
  rw [and_F000] at hp ⊢
  exact ⟨fun h => by rw [← h, cls_encodeNNN], fun h => by rw [h, hp]⟩

theorem and_F00F_eq_iff (op p : Word) (hp : p &&& 0xF00F#16 = p) :
    op &&& 0xF00F#16 = p ↔ (fieldsOf op).cls = (fieldsOf p).cls ∧ (fieldsOf op).n = (fieldsOf p).n := by
  rw [and_F00F] at hp ⊢
  exact ⟨fun h => by simp [← h], fun ⟨hc, hn⟩ => by rw [hc, hn, hp]⟩

theorem and_F0FF_eq_iff (op p : Word) (hp : p &&& 0xF0FF#16 = p) :
    op &&& 0xF0FF#16 = p ↔ (fieldsOf op).cls = (fieldsOf p).cls ∧ (fieldsOf op).nn = (fieldsOf p).nn := by
  rw [and_F0FF] at hp ⊢
  exact ⟨fun h => by simp [← h], fun ⟨hc, hnn⟩ => by rw [hc, hnn, hp]⟩

/-- The table's rows, each read through its mask, are the clauses of `LegalFields` in their order. -/
theorem selectsRow_iff (op : Word) : (∃ r ∈ opcodeTable, op &&& r.mask = r.pattern) ↔ LegalFields op := by
  have hFFFF : op &&& 0xFFFF#16 = op := BitVec.and_allOnes
  simp [LegalFields, opcodeTable, hFFFF, and_F000_eq_iff, and_F00F_eq_iff, and_F0FF_eq_iff, fieldsOf, or_assoc,
    and_or_left]

/-- Two rows that one word selects demand the same of every bit that both masks show. -/
theorem patterns_agree {op : Word} {r r' : OpcodeRow} (h : op &&& r.mask = r.pattern) (h' : op &&& r'.mask = r'.pattern) :
    r.pattern &&& r'.mask = r'.pattern &&& r.mask := by
  rw [← h, ← h', BitVec.and_assoc, BitVec.and_assoc, BitVec.and_comm r.mask]

theorem row_eq_of_patterns_agree : ∀ j k : Fin opcodeTable.length,
    opcodeTable[j].pattern &&& opcodeTable[k].mask = opcodeTable[k].pattern &&& opcodeTable[j].mask → j = k := by
  decide

/-- Settles O7: the decoder and the table put the same condition on the fields, and no two rows of the table agree
wherever both masks show a bit. -/
theorem legalWordsSelectOneRow : Obligations.LegalWordsSelectOneRow :=
  ⟨fun op => (decode_isInstr_iff op).trans (selectsRow_iff op).symm,
    fun _ j k hj hk => row_eq_of_patterns_agree j k (patterns_agree hj hk)⟩

/-! ## The illegal words (R55) -/

theorem class8_illegal_iff : ∀ n : Nibble, n ∉ [0x0#4, 0x1#4, 0x2#4, 0x3#4, 0x4#4, 0x5#4, 0x6#4, 0x7#4, 0xE#4]
    ↔ n ∈ [0x8#4, 0x9#4, 0xA#4, 0xB#4, 0xC#4, 0xD#4, 0xF#4] := by
  decide

/-- Settles O8: in each of the sixteen classes the spec's clause is the negation of the condition on the fields. -/
theorem illegalWordsByClass : Obligations.IllegalWordsByClass := by
  intro op
  have h0 : op ∈ [0x00E0#16, 0x00EE#16] → op.extractLsb' 12 4 = 0x0 := cls_of_mem_class0
  have hcls := nibble_cases (op.extractLsb' 12 4)
  simp only [decode_illegalOpcode_iff, LegalFields, fieldsOf, ← class8_illegal_iff]
  generalize op.extractLsb' 12 4 = c at *
  rcases hcls with rfl | rfl | rfl | rfl | rfl | rfl | rfl | rfl | rfl | rfl | rfl | rfl | rfl | rfl | rfl | rfl
  all_goals simp_all

/-- Settles O4: nine closed words. -/
theorem sampleWordsDecode : Obligations.SampleWordsDecode := by
  unfold Obligations.SampleWordsDecode
  decide

end Sys2Proof

namespace Sys2Proof.Machine

/-- Settles O13: the host's turn moves neither `PC` nor a byte, so the step fetches the same word and takes the fault. -/
theorem illegalWordFaults : Obligations.IllegalWordFaults := by
  intro s op hrun hpc hop hillegal
  have hfetch : fetch s.afterTurn = .ok op := by
    rw [fetch_congr (afterTurn_pc s) (afterTurn_ram s), fetch_of_lt hpc, hop]
  exact ⟨_, coreStep_of_illegal s.turn.tick ((afterTurn_running s).mpr hrun) hfetch hillegal, raise_tookFault _ _⟩

end Sys2Proof.Machine
end

section
/-! PROOFS. The statements of spec/40_step_cycle.md: fetch, what an instruction can do to `PC` and to the latch, the step and
its tick, the halted core; with them `Fx0A` and the timer moves of spec/46_keypad_timers.md. -/

namespace Sys2Proof.Machine

/-! ## Fetch (spec/40_step_cycle.md R62) -/

/-- Settles O9: the word fetched is the one of the two bytes at `PC`, and its slices are these bytes. -/
theorem fetchReadsTwoBytesBigEndian : Obligations.FetchReadsTwoBytesBigEndian := by
  intro s
  refine ⟨fun hlt => ?_, fun hge => ?_⟩
  · exact ⟨_, fetch_of_lt (by omega), highByte_wordOfBytes _ _, lowByte_wordOfBytes _ _⟩
  · exact ⟨max s.pc.toNat 4096, Nat.le_max_right _ _, fetch_of_ge (by omega)⟩

/-- Settles O12: the host's turn does not move `PC`, so the step fetches outside memory and takes the fault. -/
theorem fetchOutsideMemoryFaults : Obligations.FetchOutsideMemoryFaults := by
  intro s hrun hge
  have hpc : 4096 ≤ s.afterTurn.pc.toNat + 1 := by rw [afterTurn_pc]; omega
  rw [← afterTurn_pc s]
  exact ⟨_, coreStep_of_ge s.turn.tick ((afterTurn_running s).mpr hrun) hpc, raise_tookFault _ _⟩

/-! ## What an instruction does to `PC` and to the latch (R64, R65, R111) -/

/-- The instruction faults at `s` with this cause: the rows of R111 for the faults of execute, each with its condition. -/
inductive FaultsWith (s : State) : Instr → FaultCause → Prop
  | ret (h : s.sp = 0) : FaultsWith s .ret .stackUnderflow
  | call (nnn : Addr12) (h : s.sp = 16) : FaultsWith s (.call nnn) .stackOverflow
  | drw (x y : Reg) (n : Nibble) (hn : n ≠ 0) (h : 4096 < s.i.toNat + n.toNat) :
    FaultsWith s (.drw x y n) (.outOfBounds (max s.i.toNat 4096))
  | ldB (x : Reg) (h : 4096 ≤ s.i.toNat + 2) : FaultsWith s (.ldB x) (.outOfBounds (max s.i.toNat 4096))
  | storeRegs (x : Reg) (h : 4096 ≤ s.i.toNat + x.val) : FaultsWith s (.storeRegs x) (.outOfBounds (max s.i.toNat 4096))
  | loadRegs (x : Reg) (h : 4096 ≤ s.i.toNat + x.val) : FaultsWith s (.loadRegs x) (.outOfBounds (max s.i.toNat 4096))

/-- `t` follows `s` as an outcome of `i`: the latch is untouched and `PC` is the one of R64's table, or `i` took its fault. -/
def MovesOrFaults (i : Instr) (s t : State) : Prop :=
  (t.fault = s.fault ∧ t.pc = nextPc i s) ∨ ∃ c, FaultsWith s i c ∧ t = raise c s

theorem inRange_eq_false_iff (base n : Nat) : inRange base n = false ↔ n ≠ 0 ∧ 4096 < base + n := by
  rw [← Bool.not_eq_true, inRange_iff, not_or, Nat.not_le]

section
variable {s t : State}

/-- The entry that `00EE` pops, as the table of R64 writes it. -/
theorem top_eq_getD (h : s.sp.toNat - 1 < 16) : s.top h = s.stack.toList.getD (s.sp.toNat - 1) 0 := by
  simp [State.top, h]

theorem execRet_movesOrFaults (h : execRet s = .next t) : MovesOrFaults .ret s t := by
  rcases execRet_cases h with ⟨h0, rfl⟩ | ⟨_, hlt, rfl⟩
  · exact .inr ⟨_, .ret h0, rfl⟩
  · exact .inl ⟨rfl, top_eq_getD hlt⟩

theorem execCall_movesOrFaults {nnn : Addr12} (h : execCall nnn s = .next t) : MovesOrFaults (.call nnn) s t := by
  rcases execCall_cases h with ⟨h16, rfl⟩ | ⟨_, rfl⟩
  · exact .inr ⟨_, .call nnn h16, rfl⟩
  · exact .inl ⟨rfl, rfl⟩

theorem execDrw_movesOrFaults {x y : Reg} {n : Nibble} (h : execDrw x y n s = .next t) : MovesOrFaults (.drw x y n) s t := by
  rcases execDrw_cases h with ⟨_, rfl⟩ | ⟨hout, rfl⟩
  · exact .inl ⟨rfl, rfl⟩
  · obtain ⟨hn, hgt⟩ := (inRange_eq_false_iff _ _).mp hout
    exact .inr ⟨_, .drw x y n (fun e => hn (by rw [e]; rfl)) hgt, rfl⟩

theorem execLoadRegs_movesOrFaults {x : Reg} (h : execLoadRegs x s = .next t) : MovesOrFaults (.loadRegs x) s t := by
  rcases execLoadRegs_cases h with ⟨_, rfl⟩ | ⟨hout, rfl⟩
  · exact .inl ⟨rfl, rfl⟩
  · obtain ⟨_, hgt⟩ := (inRange_eq_false_iff _ _).mp hout
    exact .inr ⟨_, .loadRegs x (Nat.lt_succ_iff.mp hgt), rfl⟩

theorem execLdVxK_movesOrFaults {x : Reg} (h : execLdVxK x s = .next t) : MovesOrFaults (.ldVxK x) s t := by
  rcases execLdVxK_cases h with ⟨h0, rfl⟩ | ⟨hne, rfl⟩
  · exact .inl ⟨rfl, (if_pos h0).symm⟩
  · exact .inl ⟨rfl, (if_neg hne).symm⟩

/-- A store at `I` advances, or faults where its last byte lies outside `ram`. -/
theorem storeAtI_movesOrFaults {i : Instr} {bs : List Byte} (hpc : nextPc i s = s.pc + 2)
    (hf : 4096 < s.i.toNat + bs.length → FaultsWith s i (.outOfBounds (max s.i.toNat 4096)))
    (h : storeAtI bs s = .next t) : MovesOrFaults i s t := by
  rcases storeAtI_cases bs s with ⟨_, e⟩ | ⟨hout, e⟩ <;> cases e.symm.trans h
  · exact .inl ⟨rfl, hpc.symm⟩
  · exact .inr ⟨_, hf ((inRange_eq_false_iff _ _).mp hout).2, rfl⟩

theorem execLdB_movesOrFaults {x : Reg} (h : execLdB x s = .next t) : MovesOrFaults (.ldB x) s t :=
  storeAtI_movesOrFaults (bs := decimalDigits (s.reg x)) rfl (fun hgt => .ldB x (Nat.lt_succ_iff.mp hgt)) h

theorem execStoreRegs_movesOrFaults {x : Reg} (h : execStoreRegs x s = .next t) : MovesOrFaults (.storeRegs x) s t :=
  storeAtI_movesOrFaults rfl (fun hgt => .storeRegs x (by rw [regRange_length] at hgt; omega)) h

/-- Every instruction follows R64's table, or takes a fault of R111. -/
theorem exec_movesOrFaults (i : Instr) (h : exec i s = .next t) : MovesOrFaults i s t :=
  match i, h with
  | .ret, h => execRet_movesOrFaults h
  | .call _, h => execCall_movesOrFaults h
  | .drw .., h => execDrw_movesOrFaults h
  | .ldVxK _, h => execLdVxK_movesOrFaults h
  | .ldB _, h => execLdB_movesOrFaults h
  | .storeRegs _, h => execStoreRegs_movesOrFaults h
  | .loadRegs _, h => execLoadRegs_movesOrFaults h
  | .cls, rfl | .jp _, rfl | .jpV0 _, rfl | .seImm .., rfl | .sneImm .., rfl | .seReg .., rfl | .sneReg .., rfl
  | .skp _, rfl | .sknp _, rfl | .ldImm .., rfl | .addImm .., rfl | .ldReg .., rfl | .orReg .., rfl | .andReg .., rfl
  | .xorReg .., rfl | .addReg .., rfl | .subReg .., rfl | .shr .., rfl | .subnReg .., rfl | .shl .., rfl | .rnd .., rfl
  | .ldI _, rfl | .addI _, rfl | .ldF _, rfl | .ldVxDT _, rfl | .ldDTVx _, rfl | .ldSTVx _, rfl => .inl ⟨rfl, rfl⟩

/-- An instruction that halts a running core took one of its faults. -/
theorem faultsWith_of_exec_halts {i : Instr} (hrun : s.running) (h : exec i s = .next t) (hhalt : ¬ t.running) :
    ∃ c, FaultsWith s i c ∧ t = raise c s := by
  rcases exec_movesOrFaults i h with ⟨hfault, _⟩ | hfaults
  · exact absurd (hfault.trans hrun) hhalt
  · exact hfaults

end

/-- Settles O16: a fault taken in execute is one of the rows of R111. -/
theorem onlyListedInstructionsFault : Obligations.OnlyListedInstructionsFault := by
  intro i s t hrun h hhalt
  obtain ⟨c, hc, rfl⟩ := faultsWith_of_exec_halts hrun h hhalt
  have htook := raise_tookFault c s
  cases hc with
  | ret h0 => exact .inl ⟨rfl, h0, htook⟩
  | call nnn h16 => exact .inr (.inl ⟨⟨nnn, rfl⟩, h16, htook⟩)
  | drw x y n hn hgt => exact .inr (.inr (.inl ⟨⟨x, y, n, rfl, hn, hgt⟩, htook⟩))
  | ldB x hge => exact .inr (.inr (.inr (.inl ⟨⟨x, rfl⟩, hge, htook⟩)))
  | storeRegs x hge => exact .inr (.inr (.inr (.inr ⟨⟨x, .inl rfl, hge⟩, htook⟩)))
  | loadRegs x hge => exact .inr (.inr (.inr (.inr ⟨⟨x, .inr rfl, hge⟩, htook⟩)))

/-- Settles O17: an instruction follows the table, or takes a fault, which halts and leaves `PC`. -/
theorem programCounterTable : Obligations.ProgramCounterTable := by
  intro i s t hrun h
  rcases exec_movesOrFaults i h with ⟨hfault, hpc⟩ | ⟨c, _, rfl⟩
  · exact ⟨fun _ => hpc, fun hhalt => absurd (hfault.trans hrun) hhalt⟩
  · exact ⟨fun hr => absurd hr (raise_not_running c s), fun _ => rfl⟩

/-! ## The step and its tick (R60, R66, R67) -/

/-- The state at the end of a step whose `tick` input is `b` and which has not faulted. -/
def State.ticked (s : State) (b : Bool) : State := if b then tick s else s

theorem countDown_toNat (b : Byte) : (countDown b).toNat = b.toNat - 1 := by
  unfold countDown
  split
  · next h => rw [h]; rfl
  · bv_omega

section
variable (s : State) (b : Bool)

theorem ticked_dt_toNat : (s.ticked b).dt.toNat = if b then s.dt.toNat - 1 else s.dt.toNat := by
  cases b
  · rfl
  · exact countDown_toNat s.dt

theorem ticked_st_toNat : (s.ticked b).st.toNat = if b then s.st.toNat - 1 else s.st.toNat := by
  cases b
  · rfl
  · exact countDown_toNat s.st

theorem ticked_sameBut : SameBut [.dt, .st] s (s.ticked b) := by
  cases b
  · exact sameBut_refl _ s
  · exact tick_sameBut s

end

theorem endStep_of_running (b : Bool) {u : State} (h : u.running) : endStep b (.next u) = .next (u.ticked b) := by
  cases b
  · rfl
  · exact endStep_true_of_running ((halted_eq_false_iff u).mpr h)

section
variable {s u : State} {i : Instr} (hrun : s.running) (hf : s.fetches i)
include hrun hf

/-- A running core at `i` executes `i` on the state the host's turn leaves, and ends the step. -/
theorem step_of_fetches : step s = endStep s.turn.tick (exec i s.afterTurn) :=
  coreStep_of_fetches s.turn.tick ((afterTurn_running s).mpr hrun) ((afterTurn_fetches s i).mpr hf)

theorem step_of_exec_running (he : exec i s.afterTurn = .next u) (hu : u.running) :
    step s = .next (u.ticked s.turn.tick) := by
  rw [step_of_fetches hrun hf, he, endStep_of_running _ hu]

/-- A fetched instruction that leaves the state as it finds it: the step shows the host's turn and the tick. -/
theorem stepsTo_of_exec_self (he : exec i s.afterTurn = .next s.afterTurn) : StepsTo s fun t =>
    t.dt.toNat = (if s.turn.tick then s.dt.toNat - 1 else s.dt.toNat)
    ∧ t.st.toNat = (if s.turn.tick then s.st.toNat - 1 else s.st.toNat) ∧ SameBut [.dt, .st, .key, .turns] s t := by
  have hu : s.afterTurn.running := (afterTurn_running s).mpr hrun
  have hsame := sameBut_trans (afterTurn_sameBut s) (ticked_sameBut s.afterTurn s.turn.tick)
  refine ⟨_, step_of_exec_running hrun hf he hu, ?_, ?_, sameBut_mono hsame (by simp)⟩
  · rw [ticked_dt_toNat, afterTurn_dt]
  · rw [ticked_st_toNat, afterTurn_st]

end

/-- Settles O10: the end of the step ticks a running state at level 1 and else leaves the state. -/
theorem stepRunsTheDecodedInstruction : Obligations.StepRunsTheDecodedInstruction := by
  intro s i hrun hf
  have hstep := step_of_fetches hrun hf
  refine ⟨hstep, fun u he hu htick => ?_, fun u he hor => ?_⟩
  · have hend : step s = .next (tick u) := by
      rw [hstep, he, htick, endStep_true_of_running ((halted_eq_false_iff u).mpr hu)]
    exact ⟨_, hend, rfl, rfl, tick_sameBut u⟩
  · rw [hstep, he]
    rcases hor with hhalt | htick
    · exact endStep_of_halted _ ((halted_iff u).mpr hhalt)
    · rw [htick]
      rfl

/-- Settles O18: the tick counts down from the timer the instruction left, and `Fx07` has copied `DT` before it. -/
theorem timerWriteComesBeforeTheTick : Obligations.TimerWriteComesBeforeTheTick := by
  intro s x hrun
  have hu : s.afterTurn.running := (afterTurn_running s).mpr hrun
  have hsetDt : exec (.ldDTVx x) s.afterTurn = .next (s.afterTurn.setDt (s.reg x)).advance := by
    rw [← afterTurn_reg s x]; rfl
  have hsetSt : exec (.ldSTVx x) s.afterTurn = .next (s.afterTurn.setSt (s.reg x)).advance := by
    rw [← afterTurn_reg s x]; rfl
  have hload : exec (.ldVxDT x) s.afterTurn = .next (s.afterTurn.setReg x s.dt).advance := by
    rw [← afterTurn_dt s]; rfl
  refine ⟨fun hf => ?_, fun hf => ?_, fun hf => ?_⟩
  · exact ⟨_, step_of_exec_running hrun hf hsetDt hu, ticked_dt_toNat _ _⟩
  · exact ⟨_, step_of_exec_running hrun hf hsetSt hu, ticked_st_toNat _ _⟩
  · refine ⟨_, step_of_exec_running hrun hf hload hu, ?_, ?_⟩
    · rw [ticked_sameBut _ _ .v (by decide) x, advance_reg, setReg_reg_same]
    · rw [ticked_dt_toNat, advance_dt, setReg_dt, afterTurn_dt]

/-- Settles O50: a step that keeps the invariant answers a next state. -/
theorem everyStepCompletes : Obligations.EveryStepCompletes := by
  intro s hs
  obtain ⟨t, ht, _⟩ := step_inv hs
  exact ⟨t, ht⟩

/-! ## The halted core (R68, R113) -/

theorem step_of_halted {s : State} (h : ¬ s.running) : step s = .next s.afterTurn :=
  coreStep_of_halted s.turn.tick (mt (afterTurn_running s).mp h)

/-- Settles O14: each step of a halted core is the host's turn alone, which leaves the core halted. -/
theorem haltedForGood : Obligations.HaltedForGood := by
  intro k
  induction k with
  | zero => exact fun s _ => ⟨s, rfl, sameBut_refl _ s⟩
  | succ k ih =>
    intro s hhalt
    obtain ⟨t, ht, hsame⟩ := ih s.afterTurn (mt (afterTurn_running s).mp hhalt)
    refine ⟨t, (run_succ k (step_of_halted hhalt)).trans ht, ?_⟩
    exact sameBut_mono (sameBut_trans (afterTurn_sameBut s) hsame) (by simp)

/-- A core step that halts a running core took a fault, at the fetch, at the decoder or in execute, and did not tick. -/
theorem coreStep_halts {b : Bool} {s t : State} (hrun : s.running) (h : coreStep b s = .next t) (hhalt : ¬ t.running) :
    ∃ c, t = raise c s := by
  rcases coreStep_cases h with ⟨hno, _⟩ | ⟨_, _, rfl⟩ | ⟨_, _, _, _, _, rfl⟩ | ⟨_, i, _, he⟩
  · exact absurd hrun hno
  · exact ⟨_, rfl⟩
  · exact ⟨_, rfl⟩
  · obtain ⟨u, hu, ⟨_, hgoes, rfl⟩ | ⟨_, rfl⟩⟩ := endStep_cases he
    · exact absurd ((halted_eq_false_iff u).mp hgoes) hhalt
    · obtain ⟨c, _, hc⟩ := faultsWith_of_exec_halts hrun hu hhalt
      exact ⟨c, hc⟩

/-- Settles O15: a step that faults only takes the fault. -/
theorem faultingStepIsPrecise : Obligations.FaultingStepIsPrecise := by
  intro s t hrun h hhalt
  obtain ⟨c, rfl⟩ := coreStep_halts ((afterTurn_running s).mpr hrun) h hhalt
  obtain ⟨_, _, hsame⟩ := raise_tookFault c s.afterTurn
  exact hsame

/-! ## The jump to itself (R69) -/

theorem exec_jp_self {s : State} {nnn : Addr12} (h : nnn.toNat = s.pc.toNat) : exec (.jp nnn) s = .next s := by
  have htarget : addrOf nnn = s.pc := by
    apply BitVec.eq_of_toNat_eq
    rw [addrOf, BitVec.toNat_setWidth_of_le (by decide), h]
  have hexec : exec (.jp nnn) s = .next (s.setPc (addrOf nnn)) := rfl
  rw [hexec, htarget]
  rfl

/-- The final predicate looks at `PC`, memory and the latch only. -/
theorem atSelfJump_of_sameBut {ps : List Part} {s t : State} (h : SameBut ps s t) (hs : s.atSelfJump)
    (hpc : .pc ∉ ps := by decide) (hram : .ram ∉ ps := by decide) (hfault : .fault ∉ ps := by decide) : t.atSelfJump := by
  have epc : t.pc = s.pc := h .pc hpc
  have eram : ∀ a, t.ram.read a = s.ram.read a := h .ram hram
  have efault : t.fault = s.fault := h .fault hfault
  simpa only [State.atSelfJump, State.running, State.fetches, epc, eram, efault] using hs

/-- Settles O54: the jump leaves the state as it finds it, so the step is the host's turn and the tick. -/
theorem selfJumpIsStable : Obligations.SelfJumpIsStable := by
  intro s hs
  obtain ⟨hrun, nnn, hf, hself⟩ := hs
  have hexec : exec (.jp nnn) s.afterTurn = .next s.afterTurn := exec_jp_self (by rw [afterTurn_pc, hself])
  obtain ⟨t, ht, hdt, hst, hsame⟩ := stepsTo_of_exec_self hrun hf hexec
  refine ⟨t, ht, atSelfJump_of_sameBut hsame ⟨hrun, nnn, hf, hself⟩, ?_, ?_, hsame⟩
  · rw [hdt]; split <;> omega
  · rw [hst]; split <;> omega

/-! ## Waiting for a key, moving the timers (spec/46_keypad_timers.md R104 to R107) -/

/-- Settles O44: a wait leaves the state as it finds it, so its step is the host's turn and the tick; a key held is one
register write and the advance. -/
theorem waitForKey : Obligations.WaitForKey := by
  intro x s
  have hwait : ∀ u : State, u.key = 0 → exec (.ldVxK x) u = .next u := fun u h0 => if_pos h0
  refine ⟨hwait s, fun hkey => ?_, fun hrun hf h0 => ?_⟩
  · have htake : exec (.ldVxK x) s = .next (s.setReg x s.key).advance := if_neg hkey
    obtain ⟨hparts, hregs, _⟩ := exec_frame (.ldVxK x) htake
    exact ⟨_, htake, setReg_reg_same s x s.key, rfl, hregs, hparts⟩
  · obtain ⟨t, ht, hdt, hst, hsame⟩ := stepsTo_of_exec_self hrun hf (hwait s.afterTurn h0)
    exact ⟨t, ht, hsame .pc (by decide), hdt, hst, hsame⟩

/-- Settles O45: each is one register write and the advance. -/
theorem timerMoves : Obligations.TimerMoves := by
  intro x s
  have hload : exec (.ldVxDT x) s = .next (s.setReg x s.dt).advance := rfl
  have hsetDt : exec (.ldDTVx x) s = .next (s.setDt (s.reg x)).advance := rfl
  have hsetSt : exec (.ldSTVx x) s = .next (s.setSt (s.reg x)).advance := rfl
  obtain ⟨hparts, hregs, _⟩ := exec_frame (.ldVxDT x) hload
  exact ⟨⟨_, hload, setReg_reg_same s x s.dt, rfl, hregs, hparts⟩,
    ⟨_, hsetDt, rfl, rfl, (exec_frame (.ldDTVx x) hsetDt).parts⟩,
    ⟨_, hsetSt, rfl, rfl, (exec_frame (.ldSTVx x) hsetSt).parts⟩⟩

end Sys2Proof.Machine
end

section
/-! PROOFS. The statements of spec/41_flow.md: the jumps, the call, the return. -/

namespace Sys2Proof.Machine

/-! ## The operands as 16-bit words -/

@[simp] theorem addrOf_toNat (nnn : Addr12) : (addrOf nnn).toNat = nnn.toNat := BitVec.toNat_setWidth_of_le (by decide)

@[simp] theorem wordOf_toNat (b : Byte) : (wordOf b).toNat = b.toNat := BitVec.toNat_setWidth_of_le (by decide)

/-! ## The jumps (R71, R73) -/

/-- Settles O20: the target is the operand, and a write of `PC` is all there is. -/
theorem jumpSetsTheProgramCounter : Obligations.JumpSetsTheProgramCounter := by
  intro nnn s
  exact ⟨_, rfl, addrOf_toNat nnn, setPc_sameBut s (addrOf nnn)⟩

/-- Settles O22: a 12-bit and an 8-bit operand have a sum below 65536. -/
theorem indexedJumpAddsV0 : Obligations.IndexedJumpAddsV0 := by
  intro nnn s
  have hsum : (addrOf nnn + wordOf (s.reg 0)).toNat = nnn.toNat + (s.reg 0).toNat := by
    rw [BitVec.toNat_add_of_lt (by simp only [addrOf_toNat, wordOf_toNat]; omega), addrOf_toNat, wordOf_toNat]
  exact ⟨_, rfl, hsum, setPc_sameBut s _⟩

/-! ## The return and the call (R70, R72) -/

/-- Settles O19: on the empty stack `00EE` takes the fault; else it drops the entry below `SP` and sets `PC` to it. -/
theorem returnPopsTheStack : Obligations.ReturnPopsTheStack := by
  intro s
  refine ⟨fun h0 => ⟨_, if_pos h0, raise_tookFault .stackUnderflow s⟩, fun ⟨hpos, hle⟩ => ?_⟩
  have hentry : s.sp.toNat - 1 < 16 := by omega
  have hsp : s.drop.sp.toNat = s.sp.toNat - 1 := by rw [drop_sp]; bv_omega
  have hframe := sameBut_trans (drop_sameBut s) (setPc_sameBut s.drop (s.top hentry))
  exact ⟨_, execRet_of_pos (by bv_omega) hentry, rfl, hsp, sameBut_mono hframe (by simp)⟩

/-- Settles O21: on the full stack `2nnn` takes the fault; else it pushes the return address and sets `PC`. -/
theorem callPushesTheReturnAddress : Obligations.CallPushesTheReturnAddress := by
  intro nnn s
  refine ⟨fun h16 => ⟨_, if_pos h16, raise_tookFault .stackOverflow s⟩, fun hroom => ?_⟩
  have hsp : (s.push (s.pc + 2) hroom).sp.toNat = s.sp.toNat + 1 := by rw [push_sp]; bv_omega
  have hstack : ∀ k : Fin 16,
      (s.push (s.pc + 2) hroom).stack[k] = if k.val = s.sp.toNat then s.pc + 2 else s.stack[k] := by
    intro k
    simp only [push_stack, Fin.getElem_fin, Vector.getElem_set, eq_comm]
  have hframe := sameBut_trans (push_sameBut s (s.pc + 2) hroom) (setPc_sameBut _ (addrOf nnn))
  exact ⟨_, execCall_of_lt nnn hroom, addrOf_toNat nnn, hsp, hstack, sameBut_mono hframe (by simp)⟩

/-- Settles O24: the call leaves its return address below `SP`, the subroutine keeps both, and the return pops it. -/
theorem callThenReturn : Obligations.CallThenReturn := by
  intro nnn s t u hroom hcall hkeep
  obtain ⟨_, ht, _, hsp, hstack, _⟩ := (callPushesTheReturnAddress nnn s).2 hroom
  cases ht.symm.trans hcall
  have husp : u.sp.toNat = s.sp.toNat + 1 := (congrArg BitVec.toNat (hkeep .sp (by decide))).trans hsp
  have hentry : u.stack[s.sp.toNat] = s.pc + 2 :=
    (hkeep .stack (by decide) ⟨s.sp.toNat, hroom⟩).trans ((hstack ⟨s.sp.toNat, hroom⟩).trans (if_pos rfl))
  obtain ⟨w, hw, hpc, hwsp, _⟩ := (returnPopsTheStack u).2 ⟨by omega, by omega⟩
  refine ⟨w, hw, ?_, BitVec.eq_of_toNat_eq (by omega)⟩
  simp only [hpc, husp, Nat.add_sub_cancel, hentry]

end Sys2Proof.Machine
end

section
/-! PROOFS. The statements of spec/42_skip.md: the four skips that compare a register. -/

namespace Sys2Proof.Machine

/-- An instruction that is one conditional skip writes `PC` alone, and by its condition (R64). -/
theorem completes_skipIf {i : Instr} {s : State} {c : Bool} {p : Prop} [Decidable p]
    (hexec : exec i s = .next (s.skipIf c)) (hc : c = true ↔ p) :
    Completes i s fun t => t.pc = (if p then s.pc + 4 else s.pc + 2) ∧ SameBut [.pc] s t :=
  ⟨_, hexec, (skipIf_pc s c).trans (if_congr hc rfl rfl), setPc_sameBut s _⟩

/-- Settles O26: each is one conditional skip, whose Boolean test says what the rule compares. -/
theorem registerSkips : Obligations.RegisterSkips := by
  intro x y nn s
  exact ⟨completes_skipIf (c := s.reg x == nn) rfl beq_iff_eq,
    completes_skipIf (c := s.reg x != nn) rfl bne_iff_ne,
    completes_skipIf (c := s.reg x == s.reg y) rfl beq_iff_eq,
    completes_skipIf (c := s.reg x != s.reg y) rfl bne_iff_ne⟩

end Sys2Proof.Machine
end

section
/-! PROOFS. The statements of spec/43_alu.md: load, arithmetic, logic, shift. The instructions share two shapes, a
register write and a register write with a flag; each shape's effect is said once. -/

namespace Sys2Proof.Machine

theorem Completes.imp {i : Instr} {s : State} {P Q : State → Prop} (h : Completes i s P) (hPQ : ∀ t, P t → Q t) :
    Completes i s Q := by
  obtain ⟨t, hexec, hP⟩ := h
  exact ⟨t, hexec, hPQ t hP⟩

theorem sameRegsBut_trans {rs : List Reg} {s t u : State} (h : SameRegsBut rs s t) (h' : SameRegsBut rs t u) :
    SameRegsBut rs s u :=
  fun r hr => (h' r hr).trans (h r hr)

section
variable {i : Instr} {x : Reg} {b : Byte} {s : State}

/-- An instruction that is one register write and the advance. -/
theorem completes_writeAdvance (hexec : exec i s = .next (writeAdvance x b s)) :
    Completes i s fun t => t.reg x = b ∧ t.pc = s.pc + 2 ∧ SameRegsBut [x] s t ∧ SameBut [.v, .pc] s t := by
  obtain ⟨hparts, hregs, _⟩ := (setReg_frame (s := s) x b).advance
  exact ⟨_, hexec, setReg_reg_same s x b, rfl, hregs, hparts⟩

/-- An instruction that is one write of a result of value `n` and of a flag that says `p`, and the advance. The flag is
written last, so it is what `V[x]` holds when `x = 0xF` (R80, decision D12). -/
theorem completes_flagAdvance {f : Bool} {p : Prop} [Decidable p] {n : Nat}
    (hexec : exec i s = .next (flagAdvance x b f s)) (hf : f = true ↔ p) (hb : b.toNat = n) :
    Completes i s fun t => t.reg regF = (if p then 1 else 0) ∧ (x ≠ regF → (t.reg x).toNat = n)
      ∧ t.pc = s.pc + 2 ∧ SameRegsBut [x, regF] s t ∧ SameBut [.v, .pc] s t := by
  have hflag : (flagAdvance x b f s).reg regF = if p then 1 else 0 :=
    (setReg_reg_same (s.setReg x b) regF (flagByte f)).trans (if_congr hf rfl rfl)
  have hresult : x ≠ regF → (flagAdvance x b f s).reg x = b := fun hx =>
    (setReg_reg_other (s.setReg x b) regF x (flagByte f) hx).trans (setReg_reg_same s x b)
  obtain ⟨hparts, hregs, _⟩ := (setResultFlag_frame (s := s) x b f).advance
  exact ⟨_, hexec, hflag, fun hx => (congrArg BitVec.toNat (hresult hx)).trans hb, rfl, hregs, hparts⟩

end

/-! ## The values of the 8-bit results (R90) -/

theorem byteSub_toNat (a b : Byte) : (a - b).toNat = (a.toNat + 256 - b.toNat) % 256 := by
  rw [BitVec.toNat_sub]
  omega

theorem byteShiftRightOne_toNat (a : Byte) : (a >>> 1).toNat = a.toNat / 2 := by
  rw [BitVec.toNat_ushiftRight, Nat.shiftRight_one]

theorem byteShiftLeftOne_toNat (a : Byte) : (a <<< 1).toNat = 2 * a.toNat % 256 := by
  rw [BitVec.toNat_shiftLeft, Nat.shiftLeft_eq]
  omega

/-! ## No flag: immediates and logic (R78, R79, R81 to R84) -/

/-- Settles O28: each is one register write, and the second of two in a row reads what the first wrote. -/
theorem immediateLoadAndAdd : Obligations.ImmediateLoadAndAdd := by
  intro x nn s
  have hload : Completes (.ldImm x nn) s fun t =>
      t.reg x = nn ∧ t.pc = s.pc + 2 ∧ SameRegsBut [x] s t ∧ SameBut [.v, .pc] s t :=
    completes_writeAdvance rfl
  have hadd (k : Byte) (u : State) : Completes (.addImm x k) u fun t =>
      (t.reg x).toNat = ((u.reg x).toNat + k.toNat) % 256 ∧ t.pc = u.pc + 2 ∧ SameRegsBut [x] u t
      ∧ SameBut [.v, .pc] u t :=
    (completes_writeAdvance rfl).imp fun t ⟨hreg, hrest⟩ => ⟨by rw [hreg, BitVec.toNat_add], hrest⟩
  refine ⟨hload, hadd nn s, fun nn₂ => hload.imp fun t ⟨hreg, _, hregs, _⟩ => ?_⟩
  refine (hadd nn₂ t).imp fun u ⟨hsum, _, hregs', _⟩ => ⟨?_, sameRegsBut_trans hregs hregs'⟩
  rw [hsum, hreg]

/-- Settles O29: each is one register write, of the copy or of the bitwise result. -/
theorem assignAndLogic : Obligations.AssignAndLogic := by
  intro x y s
  refine ⟨completes_writeAdvance rfl, ?or, ?and, ?xor⟩
  case or =>
    exact (completes_writeAdvance rfl).imp fun t ⟨hreg, hrest⟩ => ⟨fun k => by rw [hreg, BitVec.getLsbD_or], hrest⟩
  case and =>
    exact (completes_writeAdvance rfl).imp fun t ⟨hreg, hrest⟩ => ⟨fun k => by rw [hreg, BitVec.getLsbD_and], hrest⟩
  case xor =>
    exact (completes_writeAdvance rfl).imp fun t ⟨hreg, hrest⟩ => ⟨fun k => by rw [hreg, BitVec.getLsbD_xor], hrest⟩

/-! ## A result and a flag (R85 to R89) -/

/-- Settles O30: the flag is the test of the exact sum, the result the sum as a byte. -/
theorem addWithCarryOut : Obligations.AddWithCarryOut := by
  intro x y s
  exact completes_flagAdvance rfl decide_eq_true_iff (BitVec.toNat_add (s.reg x) (s.reg y))

/-- Settles O31: the flags are the strict and the non-strict comparison of the operands, the results the two differences
as bytes. -/
theorem subtractAndReverseSubtract : Obligations.SubtractAndReverseSubtract := by
  intro x y s
  exact ⟨completes_flagAdvance rfl decide_eq_true_iff (byteSub_toNat (s.reg x) (s.reg y)),
    completes_flagAdvance rfl decide_eq_true_iff (byteSub_toNat (s.reg y) (s.reg x))⟩

/-- Settles O32: neither the flag nor the result of a shift reads `V[y]`. -/
theorem shiftsByOne : Obligations.ShiftsByOne := by
  intro x y s
  exact ⟨completes_flagAdvance rfl Iff.rfl (byteShiftRightOne_toNat (s.reg x)),
    completes_flagAdvance rfl Iff.rfl (byteShiftLeftOne_toNat (s.reg x))⟩

end Sys2Proof.Machine
end

section
/-! PROOFS. The statements of spec/44_index_memory.md: the index register, the stores and the load at `I`. The three
writes of `I` share one shape and the two stores another; each shape's effect is said once. -/

namespace Sys2Proof.Machine

section
variable {i : Instr} {s : State}

/-! ## The index register (R92 to R94) -/

/-- An instruction that is one write of `I`, of a word of value `n`, and the advance. -/
theorem completes_setI {w : Word} {n : Nat} (hexec : exec i s = .next (s.setI w).advance) (hw : w.toNat = n) :
    Completes i s fun t => t.i.toNat = n ∧ t.pc = s.pc + 2 ∧ SameBut [.i, .pc] s t :=
  ⟨_, hexec, hw, rfl, sameBut_trans (setI_sameBut s w) (setPc_sameBut _ _)⟩

/-- The font lies below `0x200`, so the address of the glyph of any byte fits 16 bits (R94, decision D17). -/
theorem glyphAddr_toNat (b : Byte) : (glyphAddr b).toNat = Config.fontBase + 5 * b.toNat :=
  (BitVec.toNat_ofNat _ _).trans (Nat.mod_eq_of_lt (by have := fontBase_fits; omega))

/-- Settles O34: the 12-bit operand, as a 16-bit word, is one write of `I`. -/
theorem loadIndex : Obligations.LoadIndex := by
  intro nnn s
  exact completes_setI rfl (addrOf_toNat nnn)

/-- Settles O35: the sum and the glyph's address are each one write of `I`. -/
theorem addToIndexAndGlyphAddress : Obligations.AddToIndexAndGlyphAddress := by
  intro x s
  have hsum : (s.i + wordOf (s.reg x)).toNat = (s.i.toNat + (s.reg x).toNat) % 65536 := by
    rw [BitVec.toNat_add, wordOf_toNat]
  exact ⟨completes_setI rfl hsum, completes_setI rfl (glyphAddr_toNat (s.reg x))⟩

/-! ## The stores at `I` (R95, R96) -/

/-- An instruction that answers the fault `c`. -/
theorem completes_raise {c : FaultCause} (hexec : exec i s = .next (raise c s)) : Completes i s (TookFault c s) :=
  ⟨_, hexec, raise_tookFault c s⟩

/-- An instruction that is one store at `I`, inside `ram`. -/
theorem completes_storeAtI {bs : List Byte} (hexec : exec i s = storeAtI bs s) (hwf : s.ram.wf = true)
    (hfits : s.i.toNat + bs.length ≤ 4096) :
    Completes i s fun t => (∀ k (hk : k < bs.length), t.ram.read (s.i.toNat + k) = bs[k]) ∧ t.pc = s.pc + 2
      ∧ SameBytesBut s.i.toNat bs.length s t ∧ SameBut [.ram, .pc] s t := by
  obtain ⟨_, hstore, rfl, hread, hbytes⟩ := storeAtI_of_le hwf hfits
  exact ⟨_, hexec.trans hstore, hread, rfl, hbytes, sameBut_trans (setRam_sameBut s _) (setPc_sameBut _ _)⟩

end

/-- Each decimal digit of a byte fits a byte of its own. -/
theorem decimalDigits_toNat (b : Byte) : (decimalDigits b)[0].toNat = b.toNat / 100
    ∧ (decimalDigits b)[1].toNat = b.toNat / 10 % 10 ∧ (decimalDigits b)[2].toNat = b.toNat % 10 := by
  simp only [decimalDigits, List.getElem_cons_zero, List.getElem_cons_succ, BitVec.toNat_ofNat]
  omega

/-- Settles O36: a store at `I` of the three digits. -/
theorem decimalDigitsAreStored : Obligations.DecimalDigitsAreStored := by
  intro x s hwf
  refine ⟨fun hlt => ?_, fun hge => completes_raise (storeAtI_of_gt (List.cons_ne_nil _ _) (Nat.lt_succ_of_le hge))⟩
  refine (completes_storeAtI (bs := decimalDigits (s.reg x)) rfl hwf hlt).imp fun t ⟨hread, hrest⟩ => ?_
  obtain ⟨hundreds, tens, ones⟩ := decimalDigits_toNat (s.reg x)
  exact ⟨(congrArg BitVec.toNat (hread 0 (by simp))).trans hundreds,
    (congrArg BitVec.toNat (hread 1 (by simp))).trans tens,
    (congrArg BitVec.toNat (hread 2 (by simp))).trans ones, hrest⟩

/-- Settles O37: a store of the `x + 1` bytes of the register range at `I`. -/
theorem registersAreStored : Obligations.RegistersAreStored := by
  intro x s hwf
  have hlen : (s.regRange x).length = x.val + 1 := regRange_length s x
  refine ⟨fun hlt => ?inside, fun hge => completes_raise (storeAtI_of_gt ?nonempty (by omega))⟩
  case nonempty => exact List.ne_nil_of_length_eq_add_one hlen
  case inside =>
    obtain ⟨t, hexec, _, hpc, hbytes, hparts⟩ :=
      completes_storeAtI (i := .storeRegs x) (bs := s.regRange x) rfl hwf (by omega)
    rw [hlen] at hbytes
    exact ⟨t, hexec, fun r hr => storeRegs_read hwf hlt hr hexec, hpc, hbytes, hparts⟩

/-! ## The load at `I` (R97) -/

/-- `Fx65` inside `ram`: the registers up to `x` are read from memory, the ones above stay. -/
theorem completes_loadRegs {x : Reg} {s : State} (hlt : s.i.toNat + x.val < 4096) :
    Completes (.loadRegs x) s fun t =>
      (∀ r : Reg, t.reg r = if r ≤ x then s.ram.read (s.i.toNat + r.val) else s.reg r)
      ∧ t.pc = s.pc + 2 ∧ SameBut [.v, .pc] s t :=
  ⟨_, execLoadRegs_of_lt hlt, loadedRange_getElem s x, rfl, sameBut_trans (setRegs_sameBut s _) (setPc_sameBut _ _)⟩

/-- Settles O38: the load reads what memory holds at `I`, so after the store, which leaves `I`, it reads the registers
that were stored. -/
theorem registersAreLoaded : Obligations.RegistersAreLoaded := by
  intro x s
  refine ⟨fun hlt => ?inside, fun hge => completes_raise (execLoadRegs_of_ge hge), fun hwf hlt => ?roundTrip⟩
  case inside =>
    refine (completes_loadRegs hlt).imp fun t ⟨hregs, hrest⟩ => ⟨fun r hr => ?_, fun r hr => ?_, hrest⟩
    · rw [hregs, if_pos hr]
    · rw [hregs, if_neg (not_le.mpr hr)]
  case roundTrip =>
    refine ((registersAreStored x s hwf).1 hlt).imp fun t ⟨hstored, _, _, hparts⟩ u hi hram => ?_
    have hbase : u.i = s.i := hi.trans (hparts .i (by decide))
    refine (completes_loadRegs (by rwa [hbase])).imp fun w ⟨hregs, _⟩ r hr => ?_
    rw [hregs, if_pos hr, hbase, hram, hstored r hr]

end Sys2Proof.Machine
end

section
/-! PROOFS. The statements of spec/45_display.md: the clear and the sprite draw. What the draw does to the screen is said
once per cell, and its collision report once, in the coordinates of the statements. -/

namespace Sys2Proof.Machine

/-! ## The clear (R98) -/

@[simp] theorem blank_pixel (row : Fin 32) (col : Fin 64) : Framebuffer.blank.pixel row col = false := by
  simp [Framebuffer.pixel, Framebuffer.blank]

/-- Settles O41: one write of the screen, with the blank one. -/
theorem clearZeroesEveryPixel : Obligations.ClearZeroesEveryPixel := by
  intro s
  exact ⟨_, rfl, blank_pixel, rfl, sameBut_trans (setFb_sameBut s Framebuffer.blank) (setPc_sameBut _ _)⟩

/-! ## The sprite (R99) and its cells (R100) -/

section
variable {x y : Reg} {n : Nibble} {s u : State}

/-- Some sprite bit of 1 covers a cell that is `lit`. -/
def State.SpriteCovers (s : State) (x y : Reg) (n : Nibble) (lit : Bool) : Prop :=
  ∃ r c : Nat, r < n.toNat ∧ c < 8 ∧ s.spriteBitAt r c = true
    ∧ s.fb.pixel (cellRow (s.reg y) r) (cellCol (s.reg x) c) = lit

theorem sprite_length (s : State) (n : Nibble) : (s.sprite n).length = n.toNat := readRange_length _ _ _

theorem spriteBit_sprite {k : Nat} (c : Nat) (hk : k < (s.sprite n).length) :
    spriteBit (s.sprite n)[k] c = s.spriteBitAt k c :=
  congrArg (spriteBit · c) (readRange_getElem s.ram s.base n.toNat k hk)

/-- A sprite has at most 15 rows, so no two of its rows share a row of the screen. -/
theorem sprite_fits (s : State) (n : Nibble) : 0 + (s.sprite n).length ≤ 32 := by
  rw [sprite_length]
  omega

theorem drawn_pixel_cell {r c : Nat} (hr : r < n.toNat) (hc : c < 8) :
    (s.drawn x y n).fb.pixel (cellRow (s.reg y) r) (cellCol (s.reg x) c)
      = (s.fb.pixel (cellRow (s.reg y) r) (cellCol (s.reg x) c) ^^ s.spriteBitAt r c) := by
  have hk : r < (s.sprite n).length := by rwa [sprite_length]
  have hcell := drawRows_cell (s.reg y).toNat (s.reg x).toNat (s.sprite n) 0 ⟨s.fb, false⟩ (sprite_fits s n) r c hk hc
  rwa [Nat.zero_add, spriteBit_sprite] at hcell

theorem drawn_pixel_other {row : Fin 32} {col : Fin 64}
    (h : ∀ r c : Nat, r < n.toNat → c < 8 → ¬ (cellRow (s.reg y) r = row ∧ cellCol (s.reg x) c = col)) :
    (s.drawn x y n).fb.pixel row col = s.fb.pixel row col := by
  refine drawRows_other _ _ (s.sprite n) 0 ⟨s.fb, false⟩ row col fun r c hr hc => ?_
  rw [Nat.zero_add]
  exact h r c (by rwa [sprite_length] at hr) hc

theorem drawn_hit_iff : (s.drawn x y n).hit = true ↔ s.SpriteCovers x y n true := by
  unfold State.drawn
  rw [drawRows_hit _ _ _ _ _ (sprite_fits s n)]
  simp only [Bool.false_eq_true, false_or, Nat.zero_add, spriteBit_sprite, sprite_length, exists_prop]
  rfl

/-! ## The draw (R101) -/

theorem flagByte_eq_one_iff (f : Bool) : flagByte f = 1 ↔ f = true := by
  cases f <;> decide

/-- `Dxyn` whose sprite bytes all exist: the screen is the canvas, and `VF` is its collision report. -/
theorem completes_drw (h : n = 0 ∨ s.i.toNat + n.toNat ≤ 4096) : Completes (.drw x y n) s fun t =>
    t.fb = (s.drawn x y n).fb ∧ t.reg regF = flagByte (s.drawn x y n).hit
      ∧ t.pc = s.pc + 2 ∧ SameRegsBut [regF] s t ∧ SameBut [.fb, .v, .pc] s t := by
  obtain ⟨hparts, hregs, _⟩ := (setFb_setReg_frame (s := s) (s.drawn x y n).fb regF (flagByte (s.drawn x y n).hit)).advance
  exact ⟨_, execDrw_of_le h, rfl, setReg_reg_same _ regF _, rfl, hregs, sameBut_mono hparts (by decide)⟩

/-- Settles O42: each cell and the collision report are those of the canvas. -/
theorem drawXorsTheSprite : Obligations.DrawXorsTheSprite := by
  intro x y n s
  refine ⟨fun hin => ?_, fun hn hout => completes_raise (execDrw_of_gt hn hout)⟩
  refine (completes_drw hin).imp fun t ⟨hfb, hflag, hrest⟩ => ?_
  rw [hfb, hflag]
  refine ⟨fun r c => drawn_pixel_cell, fun row col => drawn_pixel_other, ?_, hrest⟩
  cases hhit : (s.drawn x y n).hit with
  | true => exact .inl ⟨rfl, drawn_hit_iff.mp hhit⟩
  | false =>
    have hmiss : ¬ s.SpriteCovers x y n true := fun hcover => by simp [drawn_hit_iff.mpr hcover] at hhit
    exact .inr ⟨rfl, fun r c hr hc hbit => Bool.eq_false_iff.mpr fun hlit => hmiss ⟨r, c, hr, hc, hbit, hlit⟩⟩

/-! ## The same sprite drawn again (R101) -/

theorem spriteBitAt_congr (hram : u.ram = s.ram) (hi : u.i = s.i) (r c : Nat) :
    u.spriteBitAt r c = s.spriteBitAt r c := by
  simp only [State.spriteBitAt, hram, hi]

section
variable (hfb : u.fb = (s.drawn x y n).fb) (hram : u.ram = s.ram) (hi : u.i = s.i)
  (hx : u.reg x = s.reg x) (hy : u.reg y = s.reg y)
include hfb hram hi hx hy

/-- A cell the sprite covers is XORed with the same bit twice, any other is left twice. -/
theorem drawn_twice_pixel (row : Fin 32) (col : Fin 64) : (u.drawn x y n).fb.pixel row col = s.fb.pixel row col := by
  by_cases hcell : ∃ r c : Nat, r < n.toNat ∧ c < 8 ∧ cellRow (u.reg y) r = row ∧ cellCol (u.reg x) c = col
  case pos =>
    obtain ⟨r, c, hr, hc, rfl, rfl⟩ := hcell
    rw [drawn_pixel_cell hr hc, hfb, hx, hy, drawn_pixel_cell hr hc, spriteBitAt_congr hram hi,
      Bool.xor_assoc, Bool.xor_self, Bool.xor_false]
  case neg =>
    have hother : ∀ r c : Nat, r < n.toNat → c < 8 → ¬ (cellRow (u.reg y) r = row ∧ cellCol (u.reg x) c = col) :=
      fun r c hr hc h => hcell ⟨r, c, hr, hc, h⟩
    rw [drawn_pixel_other hother, hfb, drawn_pixel_other (by rwa [hx, hy] at hother)]

/-- A cell under a sprite bit of 1 is lit after the first draw exactly when it was dark before. -/
theorem spriteCovers_lit_iff_dark : u.SpriteCovers x y n true ↔ s.SpriteCovers x y n false := by
  unfold State.SpriteCovers
  refine exists_congr fun r => exists_congr fun c => and_congr_right fun hr => and_congr_right fun hc => ?_
  rw [spriteBitAt_congr hram hi]
  refine and_congr_right fun hone => ?_
  rw [hfb, hx, hy, drawn_pixel_cell hr hc, hone, Bool.xor_true, Bool.not_eq_true']

end

end

/-- Settles O43: the second draw undoes the first cell by cell, and its collisions are the cells the first one lit. -/
theorem drawingTwiceRestoresTheScreen : Obligations.DrawingTwiceRestoresTheScreen := by
  intro x y n s t u hin hdraw hfb hram hi hx hy
  obtain ⟨_, ht, htfb, _⟩ := completes_drw (x := x) (y := y) hin
  cases ht.symm.trans hdraw
  have hcanvas : u.fb = (s.drawn x y n).fb := hfb.trans htfb
  refine (completes_drw (by rwa [hi])).imp fun w ⟨hwfb, hflag, _⟩ => ⟨fun row col => ?_, ?_⟩
  · rw [hwfb, drawn_twice_pixel hcanvas hram hi hx hy]
  · rw [hflag, flagByte_eq_one_iff, drawn_hit_iff, spriteCovers_lit_iff_dark hcanvas hram hi hx hy]
    rfl

end Sys2Proof.Machine
end

section
/-! PROOFS. The statements of spec/46_keypad_timers.md: the two skips that compare the key latch. -/

namespace Sys2Proof.Machine

/-- Settles O27: each is one conditional skip, whose Boolean test compares the latch with the register unmasked (D15). -/
theorem keySkips : Obligations.KeySkips := by
  intro x s
  exact ⟨completes_skipIf (c := s.key == s.reg x) rfl beq_iff_eq,
    completes_skipIf (c := s.key != s.reg x) rfl bne_iff_ne⟩

end Sys2Proof.Machine
end

section
/-! PROOFS. The statements of spec/60_exceptions.md and spec/70_reset_and_hazards.md: the ROM at boot, the load that
fails. -/

namespace Sys2Proof.Machine

/-! ## The load that succeeds (spec/70_reset_and_hazards.md R132) -/

/-- The font lies below `PROG_BASE` (R6), so its copy leaves the program region zero. -/
theorem loadFont_read_high (font : Font) {a : Nat} (h : 0x200 ≤ a) : (loadFont font).ram.read a = 0 :=
  loadFont_read_outside font (by have := fontBase_fits; omega)

theorem boot_bytes_of_le (font : Font) {rom : List Byte} (h : rom.length ≤ 3584) :
    boot (.bytes font) (.bytes rom) = State.reset.setRam ((loadFont font).ram.writeAll 0x200 rom) :=
  loadRom_of_le h (loadFont font)

/-- Settles O2: the ROM is written over the memory the font copy left, which is zero from `0x200` up. -/
theorem bootCopiesTheRom : Obligations.BootCopiesTheRom := by
  intro font rom hlen
  rw [boot_bytes_of_le font hlen]
  refine ⟨fun k hk => ?_, fun a ha => ?_, setRam_sameBut _ _⟩
  · exact read_writeAll_inside (loadFont_wf font) (by omega) hk
  · rw [setRam_ram, read_writeAll_outside (.inr ha), loadFont_read_high font (by omega)]

/-! ## The load that fails (spec/60_exceptions.md R110, R115) -/

/-- The state in which a load fails: at reset but for memory, with no ROM byte copied (R132). -/
structure State.Unloaded (s : State) : Prop where
  sameBut : SameBut [.ram] State.reset s
  high : ∀ a : Nat, 0x200 ≤ a → s.ram.read a = 0

theorem loadFont_unloaded (font : Font) : (loadFont font).Unloaded :=
  ⟨setRam_sameBut _ _, fun _ => loadFont_read_high font⟩

theorem clearedRam_unloaded : (State.reset.setRam clearedRam).Unloaded :=
  ⟨setRam_sameBut _ _, fun a _ => clearedRam_read a⟩

/-- Too long a ROM, or a font or a ROM that cannot be read: the boot takes its fault before any ROM byte is copied. -/
theorem boot_eq_raise_of_fails {font : FontSource} {src : RomSource} {c : FaultCause}
    (h : (∃ bytes rom, font = .bytes bytes ∧ src = .bytes rom ∧ rom.length > 3584 ∧ c = .romTooLarge rom.length)
      ∨ ((font = .unreadable ∨ src = .unreadable) ∧ c = .ioError)) :
    ∃ s : State, s.Unloaded ∧ boot font src = raise c s := by
  rcases h with ⟨bytes, rom, rfl, rfl, hlen, rfl⟩ | ⟨hunreadable, rfl⟩
  · exact ⟨loadFont bytes, loadFont_unloaded bytes, loadRom_of_gt hlen _⟩
  · cases font with
    | unreadable => exact ⟨_, clearedRam_unloaded, rfl⟩
    | bytes bytes =>
      obtain rfl : src = .unreadable := hunreadable.resolve_left (by simp)
      exact ⟨loadFont bytes, loadFont_unloaded bytes, rfl⟩

/-- What the host schedules and injects does not set a core going that halted at boot (R113). -/
theorem bootWith_not_running {font : FontSource} {src : RomSource} (h : ¬ (boot font src).running)
    (turns : List HostTurn) (rnd : List Byte) : ¬ (bootWith font src turns rnd).running := h

/-- Settles O3: the boot ends in a fault taken before any ROM byte was copied, and a halted core never steps. -/
theorem failedLoadNeverSteps : Obligations.FailedLoadNeverSteps := by
  intro font src c hfails
  obtain ⟨s, hs, hboot⟩ := boot_eq_raise_of_fails hfails
  obtain ⟨hcode, hinfo, hsame⟩ := raise_tookFault c s
  have hhalt : ¬ (boot font src).running := hboot ▸ raise_not_running c s
  rw [hboot]
  exact ⟨hcode, hinfo, hs.high, sameBut_trans hs.sameBut hsame,
    fun turns rnd k => haltedForGood k _ (bootWith_not_running hhalt turns rnd)⟩

end Sys2Proof.Machine
end
